-- ==== Sys2Proof/Word.lean ====
section
/-! DEFINITION. The widths of the machine (00_scope R8) and the types of its words. -/

namespace Sys2Proof

/-- A 64-bit value: a general register, the program counter, an address (R8, R15). -/
abbrev Word := BitVec 64

/-- A 32-bit word: one memory slot or one instruction (R8, R19). -/
abbrev Word32 := BitVec 32

/-- One byte of a memory word. No access of the machine is this narrow (R47); memory is kept byte by
byte (log entry 1). -/
abbrev Byte := BitVec 8

/-- A register index: the 5-bit field that names one of `X0` to `X31` (R21, R24). -/
abbrev RegIdx := BitVec 5

/-- Text, as the list of its characters: a line of assembly or of a program image. -/
abbrev Text := List Char

/-- Two's-complement range of an `n`-bit field, for `n` at least 1. -/
abbrev FitsSigned (n : Nat) (v : Int) : Prop := -(2 ^ (n - 1) : Int) ≤ v ∧ v < (2 ^ (n - 1) : Int)

end Sys2Proof
end

