-- ==== Sys2Proof/Config.lean ====
section
/-! DEFINITION. What the spec takes as parameters of the model (00_scope section 3): the encoding
assignment, how the conditional branch's offset is read, the memory capacity and the host's cap.
The default values stand in Decode.lean. -/

namespace Sys2Proof

/-- `HALT_WORD`, fixed by the source (30_encoding R79). -/
def haltWord : Word32 := 0xFFFFFFFF#32

/-- The encoding assignment `Enc` (00_scope R10): the spec gives these fields' widths; their values are
a parameter. -/
structure Enc where
  opcB    : BitVec 6
  opcBl   : BitVec 6
  opcCbz  : BitVec 8
  opcCbnz : BitVec 8
  opcBcond : BitVec 8
  opcAddi : BitVec 10
  opcSubi : BitVec 10
  opcAdd  : BitVec 11
  opcSub  : BitVec 11
  opcLdur : BitVec 11
  opcStur : BitVec 11
  opcX    : BitVec 11
  fnAnd : BitVec 6
  fnOrr : BitVec 6
  fnEor : BitVec 6
  fnMul : BitVec 6
  fnLsl : BitVec 6
  fnLsr : BitVec 6
  fnCmp : BitVec 6
  fnRet : BitVec 6
  ccEq : BitVec 4
  ccNe : BitVec 4
  ccLt : BitVec 4
  ccGe : BitVec 4
  nopWord : Word32
deriving DecidableEq, Repr

/-- `BCOND_OFFSET` (00_scope R11): which bits of a conditional branch hold its offset. -/
inductive BcondOffset where
  | low15   -- bits 19:5
  | full19  -- bits 23:5, the condition bits among them
deriving DecidableEq, Repr

/-- Everything the spec leaves as a parameter of the model (00_scope R9 to R12). -/
structure Config where
  enc : Enc
  /-- `BCOND_OFFSET`. -/
  bcond : BcondOffset
  /-- `MEM_WORDS` of a newly created memory, in 32-bit words. -/
  memWords : Nat
  /-- `RUN_CAP`, the ceiling of the host's run loop. -/
  runCap : Nat
deriving DecidableEq, Repr

/-- A leading-bit pattern: the top `width` bits of a word equal to `bits` (30_encoding section 2). -/
structure Pattern where
  width : Nat
  bits  : Nat
deriving DecidableEq, Repr

/-- A word carries the pattern in its leading bits. -/
abbrev Pattern.Matches (p : Pattern) (w : Word32) : Prop := w.toNat / 2 ^ (32 - p.width) = p.bits

/-- The narrower pattern `p` is not the top bits of `q` (30_encoding R81 (a), for `p.width ≤ q.width`). -/
abbrev Pattern.Apart (p q : Pattern) : Prop := p.bits ≠ q.bits / 2 ^ (q.width - p.width)

/-- The twelve opcode patterns of an assignment, narrowest first (30_encoding R83). -/
def Enc.patterns (e : Enc) : List Pattern :=
  [⟨6, e.opcB.toNat⟩, ⟨6, e.opcBl.toNat⟩,
   ⟨8, e.opcCbz.toNat⟩, ⟨8, e.opcCbnz.toNat⟩, ⟨8, e.opcBcond.toNat⟩,
   ⟨10, e.opcAddi.toNat⟩, ⟨10, e.opcSubi.toNat⟩,
   ⟨11, e.opcAdd.toNat⟩, ⟨11, e.opcSub.toNat⟩, ⟨11, e.opcLdur.toNat⟩, ⟨11, e.opcStur.toNat⟩,
   ⟨11, e.opcX.toNat⟩]

/-- The eight funct codes (30_encoding R81 (b)). -/
def Enc.functs (e : Enc) : List (BitVec 6) :=
  [e.fnAnd, e.fnOrr, e.fnEor, e.fnMul, e.fnLsl, e.fnLsr, e.fnCmp, e.fnRet]

/-- The four condition codes (30_encoding R81 (b)). -/
def Enc.conds (e : Enc) : List (BitVec 4) := [e.ccEq, e.ccNe, e.ccLt, e.ccGe]

end Sys2Proof
end

