-- ==== Sys2Proof/Syntax.lean ====
section
/-! DEFINITION. The instructions: one constructor for each row of spec/opcode_table.json.
Operands are the encoding's fields, with the ignored ones (30_encoding R87) left out. -/

namespace Sys2Proof

/-- The instruction set (30_encoding R82). Branch offsets are signed word counts, load and store offsets
signed byte counts, `imm` and `sh` unsigned (R94). A conditional branch keeps its offset in 19 bits, which
holds every offset of either reading of `BCOND_OFFSET` (R86); `Instr.WF` says which ones a reading admits. -/
inductive Instr where
  | b    (off : BitVec 26)
  | bl   (off : BitVec 26)
  | cbz  (rt : RegIdx) (off : BitVec 19)
  | cbnz (rt : RegIdx) (off : BitVec 19)
  | bEq  (off : BitVec 19)
  | bNe  (off : BitVec 19)
  | bGe  (off : BitVec 19)
  | bLt  (off : BitVec 19)
  | addi (rd rn : RegIdx) (imm : BitVec 12)
  | subi (rd rn : RegIdx) (imm : BitVec 12)
  | add  (rd rn rm : RegIdx)
  | sub  (rd rn rm : RegIdx)
  | ldur (rt rn : RegIdx) (off : BitVec 9)
  | stur (rt rn : RegIdx) (off : BitVec 9)
  | and  (rd rn rm : RegIdx)
  | orr  (rd rn rm : RegIdx)
  | eor  (rd rn rm : RegIdx)
  | mul  (rd rn rm : RegIdx)
  | lsl  (rd rn : RegIdx) (sh : BitVec 5)
  | lsr  (rd rn : RegIdx) (sh : BitVec 5)
  | cmp  (rn rm : RegIdx)
  | ret  (rn : RegIdx)
  | nop
  | halt
deriving DecidableEq, Repr

/-- The decoder's output variants, as the source names them (30_encoding R92). -/
inductive Variant where
  | branch | condBranch | compareBranch | immediate | register | memory | extended | nop | halt
deriving DecidableEq, Repr

/-- Which variant each instruction belongs to (30_encoding R92). -/
def Instr.variant : Instr → Variant
  | .b _ | .bl _ => .branch
  | .bEq _ | .bNe _ | .bGe _ | .bLt _ => .condBranch
  | .cbz _ _ | .cbnz _ _ => .compareBranch
  | .addi _ _ _ | .subi _ _ _ => .immediate
  | .add _ _ _ | .sub _ _ _ => .register
  | .ldur _ _ _ | .stur _ _ _ => .memory
  | .and _ _ _ | .orr _ _ _ | .eor _ _ _ | .mul _ _ _ | .lsl _ _ _ | .lsr _ _ _
  | .cmp _ _ | .ret _ => .extended
  | .nop => .nop
  | .halt => .halt

end Sys2Proof
end

