-- ==== Sys2Proof/WellFormed.lean ====
section
/-! DEFINITION. Which encoding assignments and which instructions are well formed. -/

namespace Sys2Proof

/-- A well-formed encoding assignment: the four conditions of 30_encoding R81. -/
abbrev Enc.WF (e : Enc) : Prop :=
  e.patterns.Pairwise Pattern.Apart                                        -- (a)
  ∧ e.functs.Nodup ∧ e.conds.Nodup                                         -- (b)
  ∧ e.nopWord ≠ haltWord                                                   -- (c)
  ∧ ∀ p ∈ e.patterns, ¬ p.Matches haltWord ∧ ¬ p.Matches e.nopWord         -- (d)

/-- A well-formed configuration: a well-formed assignment, and a positive capacity (00_scope R9). -/
abbrev Config.WF (c : Config) : Prop := c.enc.WF ∧ 0 < c.memWords

/-- The offset of a conditional branch with condition code `cc` can be encoded (30_encoding R86): under
`Low15` it fits 15 signed bits; under `Full19` its top four bits are the condition code. -/
def BcondOffset.Admits (m : BcondOffset) (cc : BitVec 4) (off : BitVec 19) : Bool :=
  match m with
  | .low15 => off == (off.setWidth 15).signExtend 19
  | .full19 => off.extractLsb' 15 4 == cc

/-- A well-formed instruction. Every other operand is a field of its own width, so only the offset of a
conditional branch needs a check. -/
def Instr.WF (c : Config) : Instr → Bool
  | .bEq off => c.bcond.Admits c.enc.ccEq off
  | .bNe off => c.bcond.Admits c.enc.ccNe off
  | .bGe off => c.bcond.Admits c.enc.ccGe off
  | .bLt off => c.bcond.Admits c.enc.ccLt off
  | .b _ | .bl _ | .cbz _ _ | .cbnz _ _ | .addi _ _ _ | .subi _ _ _ | .add _ _ _ | .sub _ _ _
  | .ldur _ _ _ | .stur _ _ _ | .and _ _ _ | .orr _ _ _ | .eor _ _ _ | .mul _ _ _
  | .lsl _ _ _ | .lsr _ _ _ | .cmp _ _ | .ret _ | .nop | .halt => true

end Sys2Proof
end

