-- ==== Sys2Proof/Decode.lean ====
section
/-! DEFINITION. The default parameter values, bit fields, the decoder (total, rejecting by name) and the
encoder (30_encoding). -/

namespace Sys2Proof

/-! ## Default parameters -/

/-- The default encoding assignment (30_encoding R82). DESIGN CHOICE of the spec, log entry 3: the source
gives no opcode constants. -/
def defaultEnc : Enc where
  opcB     := 0b000101
  opcBl    := 0b100101
  opcCbz   := 0b10110100
  opcCbnz  := 0b10110101
  opcBcond := 0b01010100
  opcAddi  := 0b1001000100
  opcSubi  := 0b1101000100
  opcAdd   := 0b10001011000
  opcSub   := 0b11001011000
  opcLdur  := 0b11111000010
  opcStur  := 0b11111000000
  opcX     := 0b10001010000
  fnAnd := 0x00
  fnOrr := 0x01
  fnEor := 0x02
  fnMul := 0x03
  fnLsl := 0x04
  fnLsr := 0x05
  fnCmp := 0x06
  fnRet := 0x07
  ccEq := 0x0
  ccNe := 0x1
  ccLt := 0xB
  ccGe := 0xA
  nopWord := 0xD503201F

/-- The default configuration: `Enc` of R82, `Low15` (00_scope R11), 64 words (R9), one million steps (R12).
Log entries 2, 3 and 4. -/
def defaultConfig : Config where
  enc := defaultEnc
  bcond := .low15
  memWords := 64
  runCap := 1000000

/-! ## Bit fields and extensions -/

/-- `w[lo+len-1 : lo]`, the source's `getField` (00_scope R13). -/
abbrev getField (w : Word32) (lo len : Nat) : BitVec len := w.extractLsb' lo len

/-- The source's `setField(w, hi, lo, v)` (00_scope R17): bits `hi..lo` of `w` replaced by the low bits of
`v`, the rest of `v` dropped silently. -/
def setField (w : Word32) (hi lo : Nat) (v : Word32) : Word32 :=
  let mask : Word32 := BitVec.ofNat 32 (2 ^ (hi - lo + 1) - 1) <<< lo
  (w &&& ~~~mask) ||| ((v <<< lo) &&& mask)

/-- `sext_N` of an `N`-bit field (00_scope R14). -/
abbrev sext {n : Nat} (v : BitVec n) : Word := v.signExtend 64

/-- `zext_N` of an `N`-bit field (00_scope R14). -/
abbrev zext {n : Nat} (v : BitVec n) : Word := v.setWidth 64

/-- The four bytes of a word, lowest address first. DESIGN CHOICE, log entry 1: the order cannot be
observed (20_memory R48). -/
def bytesOfWord (w : Word32) : List Byte :=
  [getField w 0 8, getField w 8 8, getField w 16 8, getField w 24 8]

/-- The word that four bytes make, the first at the lowest address; the inverse of `bytesOfWord`. -/
def wordOfBytes (b0 b1 b2 b3 : Byte) : Word32 := b3 ++ b2 ++ b1 ++ b0

/-! ## The decoder -/

/-- Why the decoder rejects: the spec's one verdict `Illegal` (30_encoding R89), told apart by the test that
gives it, and a byte list too short to hold a word. -/
inductive Reject where
  | noOpcode      -- no opcode pattern matches (R84, R89)
  | unknownCond   -- `OPC_BCOND` with a condition outside the four (R85, 41_branches R152)
  | unknownFunct  -- `OPC_X` with a funct outside the eight (R85, 45_extended R198)
  | truncated     -- fewer than four bytes were given
deriving DecidableEq, Repr

/-- `BcondOffset(w)` (30_encoding R86), in 19 bits: `sext_15(w[19:5])` or `w[23:5]`. -/
def bcondOffset (m : BcondOffset) (w : Word32) : BitVec 19 :=
  match m with
  | .low15 => (getField w 5 15).signExtend 19
  | .full19 => getField w 5 19

/-- The conditional branches, by condition code (30_encoding R84, R85). -/
def decodeBcond (c : Config) (w : Word32) : Except Reject Instr :=
  let cc := getField w 20 4
  let off := bcondOffset c.bcond w
  if cc = c.enc.ccEq then .ok (.bEq off)
  else if cc = c.enc.ccNe then .ok (.bNe off)
  else if cc = c.enc.ccLt then .ok (.bLt off)
  else if cc = c.enc.ccGe then .ok (.bGe off)
  else .error .unknownCond

/-- The X-extended format, by funct (30_encoding R84, R85). -/
def decodeX (e : Enc) (w : Word32) : Except Reject Instr :=
  let rd := getField w 0 5
  let rn := getField w 5 5
  let rm := getField w 16 5
  let fn := getField w 10 6
  if fn = e.fnAnd then .ok (.and rd rn rm)
  else if fn = e.fnOrr then .ok (.orr rd rn rm)
  else if fn = e.fnEor then .ok (.eor rd rn rm)
  else if fn = e.fnMul then .ok (.mul rd rn rm)
  else if fn = e.fnLsl then .ok (.lsl rd rn rm)
  else if fn = e.fnLsr then .ok (.lsr rd rn rm)
  else if fn = e.fnCmp then .ok (.cmp rn rm)
  else if fn = e.fnRet then .ok (.ret rn)
  else .error .unknownFunct

/-- `decode` (30_encoding R84), total on every word: the sentinels, then the opcodes from the narrowest to
the widest (R83). -/
def decodeWith (c : Config) (w : Word32) : Except Reject Instr :=
  let rd := getField w 0 5
  let rn := getField w 5 5
  let rm := getField w 16 5
  if w = haltWord then .ok .halt
  else if w = c.enc.nopWord then .ok .nop
  else if getField w 26 6 = c.enc.opcB then .ok (.b (getField w 0 26))
  else if getField w 26 6 = c.enc.opcBl then .ok (.bl (getField w 0 26))
  else if getField w 24 8 = c.enc.opcCbz then .ok (.cbz rd (getField w 5 19))
  else if getField w 24 8 = c.enc.opcCbnz then .ok (.cbnz rd (getField w 5 19))
  else if getField w 24 8 = c.enc.opcBcond then decodeBcond c w
  else if getField w 22 10 = c.enc.opcAddi then .ok (.addi rd rn (getField w 10 12))
  else if getField w 22 10 = c.enc.opcSubi then .ok (.subi rd rn (getField w 10 12))
  else if getField w 21 11 = c.enc.opcAdd then .ok (.add rd rn rm)
  else if getField w 21 11 = c.enc.opcSub then .ok (.sub rd rn rm)
  else if getField w 21 11 = c.enc.opcLdur then .ok (.ldur rd rn (getField w 12 9))
  else if getField w 21 11 = c.enc.opcStur then .ok (.stur rd rn (getField w 12 9))
  else if getField w 21 11 = c.enc.opcX then decodeX c.enc w
  else .error .noOpcode

/-- The decoder under the default configuration. -/
def decode (w : Word32) : Except Reject Instr := decodeWith defaultConfig w

/-- The decoder on any bytes: the instruction of the first four, and the bytes after it (30_encoding R70:
every instruction is 4 bytes long). -/
def decodeBytes (c : Config) : List Byte → Except Reject (Instr × List Byte)
  | b0 :: b1 :: b2 :: b3 :: rest =>
    match decodeWith c (wordOfBytes b0 b1 b2 b3) with
    | .ok i => .ok (i, rest)
    | .error r => .error r
  | _ => .error .truncated

/-- What the decoder reads from an instruction numbered as spec/opcode_table.json numbers its bits. -/
def decodeTableWord (nbits w : Nat) : Option Instr :=
  match decodeBytes defaultConfig (bytesOfWord (BitVec.ofNat 32 (w % 2 ^ nbits))) with
  | .ok (i, _) => some i
  | .error _ => none

/-! ## The encoder -/

/-- A conditional branch's word: `OPC_BCOND ++ CC ++ off[14:0] ++ 0b11111` (30_encoding R114). -/
def encodeBcond (e : Enc) (cc : BitVec 4) (off : BitVec 19) : Word32 :=
  e.opcBcond ++ cc ++ off.setWidth 15 ++ 0b11111#5

/-- An X-extended word: `OPC_X ++ rm ++ fn ++ rn ++ rd` (30_encoding R114). -/
def encodeX (e : Enc) (rm : BitVec 5) (fn : BitVec 6) (rn rd : RegIdx) : Word32 :=
  e.opcX ++ rm ++ fn ++ rn ++ rd

/-- The encoder's word for each instruction, the canonical one (30_encoding R109 to R114). -/
def encodeWith (e : Enc) : Instr → Word32
  | .b off => e.opcB ++ off
  | .bl off => e.opcBl ++ off
  | .cbz rt off => e.opcCbz ++ off ++ rt
  | .cbnz rt off => e.opcCbnz ++ off ++ rt
  | .bEq off => encodeBcond e e.ccEq off
  | .bNe off => encodeBcond e e.ccNe off
  | .bGe off => encodeBcond e e.ccGe off
  | .bLt off => encodeBcond e e.ccLt off
  | .addi rd rn imm => e.opcAddi ++ imm ++ rn ++ rd
  | .subi rd rn imm => e.opcSubi ++ imm ++ rn ++ rd
  | .add rd rn rm => e.opcAdd ++ rm ++ 0#6 ++ rn ++ rd
  | .sub rd rn rm => e.opcSub ++ rm ++ 0#6 ++ rn ++ rd
  | .ldur rt rn off => e.opcLdur ++ off ++ 0#2 ++ rn ++ rt
  | .stur rt rn off => e.opcStur ++ off ++ 0#2 ++ rn ++ rt
  | .and rd rn rm => encodeX e rm e.fnAnd rn rd
  | .orr rd rn rm => encodeX e rm e.fnOrr rn rd
  | .eor rd rn rm => encodeX e rm e.fnEor rn rd
  | .mul rd rn rm => encodeX e rm e.fnMul rn rd
  | .lsl rd rn sh => encodeX e sh e.fnLsl rn rd
  | .lsr rd rn sh => encodeX e sh e.fnLsr rn rd
  | .cmp rn rm => encodeX e rm e.fnCmp rn 31#5
  | .ret rn => encodeX e 0#5 e.fnRet rn 0#5
  | .nop => e.nopWord
  | .halt => haltWord

/-- The encoder under the default assignment. -/
def encode (i : Instr) : Word32 := encodeWith defaultEnc i

/-- The bits of an instruction's word that the decoder ignores (30_encoding R87). -/
def ignoredBits : Instr → Word32
  | .add _ _ _ | .sub _ _ _ => 0x0000FC00    -- shamt, 15:10
  | .ldur _ _ _ | .stur _ _ _ => 0x00000C00  -- 11:10
  | .bEq _ | .bNe _ | .bGe _ | .bLt _ => 0x0000001F  -- Rt, 4:0
  | .cmp _ _ => 0x0000001F                   -- Rd, 4:0
  | .ret _ => 0x001F001F                     -- 20:16 and 4:0
  | .b _ | .bl _ | .cbz _ _ | .cbnz _ _ | .addi _ _ _ | .subi _ _ _ | .and _ _ _ | .orr _ _ _
  | .eor _ _ _ | .mul _ _ _ | .lsl _ _ _ | .lsr _ _ _ | .nop | .halt => 0

/-- What the encoder writes in the ignored bits: 31 in a conditional branch's `Rt` and in `CMP`'s `Rd`, zero
elsewhere (30_encoding R114). -/
def ignoredFill : Instr → Word32
  | .bEq _ | .bNe _ | .bGe _ | .bLt _ | .cmp _ _ => 0x0000001F
  | .b _ | .bl _ | .cbz _ _ | .cbnz _ _ | .addi _ _ _ | .subi _ _ _ | .add _ _ _ | .sub _ _ _
  | .ldur _ _ _ | .stur _ _ _ | .and _ _ _ | .orr _ _ _ | .eor _ _ _ | .mul _ _ _
  | .lsl _ _ _ | .lsr _ _ _ | .ret _ | .nop | .halt => 0

end Sys2Proof
end

