-- ==== Sys2Proof/Machine/State.lean ====
section
/-! DEFINITION. The machine's state (10_state, 20_memory section 1), its reasons to stop, and reset. -/

namespace Sys2Proof.Machine

/-- The run status (10_state R33): an output of the engine that never prevents a step. -/
inductive Status where
  | running
  | halted
deriving DecidableEq, Repr

/-- The memory (20_memory R40): a capacity in 32-bit words, set when it is created and constant after, and
its contents as (byte address, byte) pairs in the canonical form of `Memory.WF` (Ops.lean). -/
structure Memory where
  /-- `MEM_WORDS`. -/
  capacity : Nat
  cells : List Host.Cell
deriving DecidableEq, Repr

/-- The machine state `(x[0..31], pc, Z, N, status, Mem)` (10_state R20). "No other state exists." -/
structure State where
  /-- `X0` to `X31`, all ordinary (10_state R21, R22). -/
  x : Vector Word 32
  /-- The program counter, a byte address; any 64-bit value (10_state R26, R28). -/
  pc : Word
  /-- The Zero flag (10_state R30). -/
  z : Bool
  /-- The Negative flag (10_state R30). -/
  n : Bool
  /-- Running or Halted (10_state R33). -/
  status : Status
  mem : Memory
deriving DecidableEq, Repr

/-- Every fault kind of the core (60_exceptions R221), with the information the spec has it carry (D21).
A fault is a result given to the host; the state stays as it was before the step (40_fetch R128). -/
inductive Fault where
  /-- A byte address that is not a multiple of 4. Raised by fetch, `LDUR`, `STUR`, and the host's word
  accesses. Safe: the machine itself reports it. -/
  | alignmentError (a : Word)
  /-- An aligned byte address at or beyond the capacity. Raised by the same accesses. Safe: the machine
  itself reports it. -/
  | outOfBounds (a : Word)
  /-- The fetched word decodes to `Illegal`. Raised by the step alone. Safe: the machine itself reports it. -/
  | illegalInstruction (w : Word32)
  /-- A register index outside 0 to 31. Raised by the host's `getX` and `setX` alone, never by a step. Safe:
  the machine itself reports it. -/
  | registerIndexError (i : Int)
  /-- A program image with more words than the capacity. Raised by the host's `loadProgram` alone. Safe: the
  machine itself reports it, and what memory holds after it is left free (20_memory R61). -/
  | capacityExceeded
deriving DecidableEq, Repr

/-- Reasons to give no meaning. Every instruction of this model has one, so nothing raises this. -/
inductive Refusal where
  /-- Raised by no arm of `exec` of this model. Safe: it claims nothing. -/
  | notModelled (mnemonic : String)
deriving DecidableEq, Repr

/-- A newly created or cleared memory of `words` words: zero in every word (20_memory R51), so nothing is
listed. -/
def Memory.zeroed (words : Nat) : Memory where
  capacity := words
  cells := []

/-- A newly created machine: the CPU at its reset values (10_state R38) and a newly created memory of the
configuration's capacity. -/
def State.created (c : Config) : State where
  x := Vector.replicate 32 0
  pc := 0
  z := false
  n := false
  status := .running
  mem := Memory.zeroed c.memWords

/-- The machine right after reset, with a newly created memory of the default 64 words. -/
def State.reset : State := State.created defaultConfig

end Sys2Proof.Machine
end

