-- ==== Sys2Proof/Machine/Ops.lean ====
section
/-! DEFINITION. The named operations over registers and memory (00_scope R16, 20_memory R43 to R45), raising
a fault, and ending a step. -/

namespace Sys2Proof.Machine

/-- What one step or one meaning answers. -/
abbrev Result := Host.Outcome State Fault Refusal

/-! ## Registers -/

/-- `x[i]`: no register is special, `X31` included (10_state R21, R22). -/
def readX (s : State) (i : RegIdx) : Word := s.x[i.toNat]'i.isLt

/-- `x[i] <- v` (10_state R21, R22). -/
def writeX (s : State) (i : RegIdx) (v : Word) : State := { s with x := s.x.set i.toNat v i.isLt }

/-! ## The rest of the state -/

/-- Memory replaced. -/
def setMem (s : State) (m : Memory) : State := { s with mem := m }

/-- `pc <- pc'; status <- Running`, the end of every instruction that ran but `HALT` (40_fetch R121). -/
def advanceTo (s : State) (pc : Word) : State := { s with pc := pc, status := .running }

/-- `status <- Halted` (40_fetch R124). -/
def setHalted (s : State) : State := { s with status := .halted }

/-! ## Memory, byte by byte -/

/-- What an unlisted address reads as: zero, the contents of a newly created memory (20_memory R51). -/
abbrev unlistedByte : Byte := 0

/-- The byte at address `a`. -/
def readCells : List Host.Cell → Nat → Byte
  | [], _ => unlistedByte
  | (k, v) :: rest, a => if k = a then v else readCells rest a

/-- One entry in front of the rest, left out where it says what an unlisted address reads as. -/
def consCell (a : Nat) (v : Byte) (rest : List Host.Cell) : List Host.Cell :=
  if v = unlistedByte then rest else (a, v) :: rest

/-- The byte `v` stored at address `a`, in canonical form. -/
def writeCells : List Host.Cell → Nat → Byte → List Host.Cell
  | [], a, v => consCell a v []
  | (k, b) :: rest, a, v =>
    if a < k then consCell a v ((k, b) :: rest)
    else if a = k then consCell a v rest
    else (k, b) :: writeCells rest a v

/-- The canonical form of memory contents: addresses strictly rising, no entry that says what an unlisted
address reads as. -/
abbrev CellsWF (cells : List Host.Cell) : Prop :=
  cells.Pairwise (fun p q => p.1 < q.1) ∧ ∀ p ∈ cells, p.2 ≠ unlistedByte

/-- A well-formed memory: a positive capacity (00_scope R9), contents in canonical form, and every listed
address inside the capacity (20_memory R52). -/
abbrev Memory.WF (m : Memory) : Prop :=
  0 < m.capacity ∧ CellsWF m.cells ∧ ∀ p ∈ m.cells, p.1 < 4 * m.capacity

/-- The byte at byte address `a`; the model's own view of memory, narrower than any access (R47). -/
def Memory.readByte (m : Memory) (a : Nat) : Byte := readCells m.cells a

/-- The byte at byte address `a` replaced. -/
def Memory.writeByte (m : Memory) (a : Nat) (v : Byte) : Memory := { m with cells := writeCells m.cells a v }

/-! ## Memory, word by word -/

/-- `Mem[i]` (20_memory R40, R42). -/
def Memory.word (m : Memory) (i : Nat) : Word32 :=
  wordOfBytes (m.readByte (4 * i)) (m.readByte (4 * i + 1)) (m.readByte (4 * i + 2)) (m.readByte (4 * i + 3))

/-- `Mem[i] <- v` (20_memory R45). -/
def Memory.setWord (m : Memory) (i : Nat) (v : Word32) : Memory :=
  (((m.writeByte (4 * i) (getField v 0 8)).writeByte (4 * i + 1) (getField v 8 8)).writeByte
    (4 * i + 2) (getField v 16 8)).writeByte (4 * i + 3) (getField v 24 8)

/-- `Check(a)` (20_memory R43): alignment first (D11), then bounds; the word index otherwise. -/
def check (m : Memory) (a : Word) : Except Fault Nat :=
  if a.toNat % 4 ≠ 0 then .error (.alignmentError a)
  else if m.capacity ≤ a.toNat / 4 then .error (.outOfBounds a)
  else .ok (a.toNat / 4)

/-- `MemRead(a, 4)` (20_memory R44). -/
def memRead (m : Memory) (a : Word) : Except Fault Word32 :=
  match check m a with
  | .ok i => .ok (m.word i)
  | .error f => .error f

/-- `MemWrite(a, 4, v)` (20_memory R45). -/
def memWrite (m : Memory) (a : Word) (v : Word32) : Except Fault Memory :=
  match check m a with
  | .ok i => .ok (m.setWord i v)
  | .error f => .error f

/-! ## Ending a step -/

/-- `raise F` (00_scope R16): the step ends with the fault and the state stays as it was (40_fetch R128). This
is all there is of taking an exception: no handler, no saved state, no mode (60_exceptions R220, R226), and
so no return from one either (R227). -/
def raise (f : Fault) : Result := .fault f

/-- An instruction that ran and goes on at `pc`: the step returns `Continue` (40_fetch R121). -/
def continueAt (s : State) (pc : Word) : Result := .next (advanceTo s pc)

/-- `pc + 4`, modulo 2^64 (10_state R29). -/
def nextPc (s : State) : Word := s.pc + 4

/-- An instruction that ran and goes on to the next one: `pc <- pc + 4` (10_state R27). -/
def continueNext (s : State) : Result := continueAt s (nextPc s)

/-- `x[rd] <- v; pc <- pc + 4`. -/
def writeAndContinue (s : State) (rd : RegIdx) (v : Word) : Result := continueNext (writeX s rd v)

end Sys2Proof.Machine
end

