-- ==== Sys2Proof/Machine/Operands.lean ====
section
/-! DEFINITION. Operand forms (30_encoding R94) and the addresses made of them. -/

namespace Sys2Proof.Machine

/-- The target of a PC-relative branch: `pc + (sext off << 2)`, modulo 2^64 (41_branches R148). -/
def branchTarget {n : Nat} (s : State) (off : BitVec n) : Word := s.pc + (sext off <<< 2)

/-- A branch on a condition: the target, or the next instruction (41_branches R148). No delay slot (R150), and
no check of the target (R149). -/
def branchIf {n : Nat} (s : State) (cond : Bool) (off : BitVec n) : Result :=
  continueAt s (if cond then branchTarget s off else nextPc s)

/-- The effective address `x[rn] + sext_9(off)`, modulo 2^64 (43_load_store R172). -/
def effectiveAddress (s : State) (rn : RegIdx) (off : BitVec 9) : Word := readX s rn + sext off

/-- The shift amount `zext_5(sh) mod 64` (45_extended R195). -/
def shiftAmount (sh : BitVec 5) : Nat := (zext sh).toNat % 64

/-- The low half of a register, what `STUR` stores (43_load_store R171). -/
def lowWord (v : Word) : Word32 := v.setWidth 32

/-- The link register `X30` (41_branches R141). -/
def linkReg : RegIdx := 30#5

end Sys2Proof.Machine
end

