-- ==== Sys2Proof/Machine/Flags.lean ====
section
/-! DEFINITION. The flags: how `CMP` computes them and how the conditional branches read them
(10_state R30, 45_extended R190, 41_branches R144 to R147). -/

namespace Sys2Proof.Machine

/-- `CMP`'s Zero flag: the difference is zero. -/
def compareZ (a b : Word) : Bool := a - b == 0

/-- `CMP`'s Negative flag: bit 63 of the wrapped difference; no overflow correction (10_state R32). -/
def compareN (a b : Word) : Bool := (a - b).msb

/-- The flags after comparing `a` with `b` (45_extended R190). -/
def setFlags (s : State) (a b : Word) : State := { s with z := compareZ a b, n := compareN a b }

/-- `EQ`: the Zero flag is set (41_branches R144). -/
def condEq (s : State) : Bool := s.z

/-- `NE`: the Zero flag is clear (41_branches R145). -/
def condNe (s : State) : Bool := !s.z

/-- `LT`: the Negative flag is set, overflow ignored (41_branches R146). -/
def condLt (s : State) : Bool := s.n

/-- `GE`: the Negative flag is clear, overflow ignored (41_branches R147). -/
def condGe (s : State) : Bool := !s.n

end Sys2Proof.Machine
end

