-- ==== Sys2Proof/Machine/Branches.lean ====
section
/-! DEFINITION. The PC-relative branches (41_branches). `RET` stands in Extended.lean. -/

namespace Sys2Proof.Machine

/-- `B` (41_branches R140). -/
def execB (off : BitVec 26) (s : State) : Result := continueAt s (branchTarget s off)

/-- `BL` (41_branches R141): link and target both from the branch's own `pc`. -/
def execBl (off : BitVec 26) (s : State) : Result :=
  continueAt (writeX s linkReg (nextPc s)) (branchTarget s off)

/-- `CBZ` (41_branches R142): all 64 bits are tested; the flags take no part. -/
def execCbz (rt : RegIdx) (off : BitVec 19) (s : State) : Result := branchIf s (readX s rt == 0) off

/-- `CBNZ` (41_branches R143). -/
def execCbnz (rt : RegIdx) (off : BitVec 19) (s : State) : Result := branchIf s (readX s rt != 0) off

/-- `B.EQ` (41_branches R144). -/
def execBEq (off : BitVec 19) (s : State) : Result := branchIf s (condEq s) off

/-- `B.NE` (41_branches R145). -/
def execBNe (off : BitVec 19) (s : State) : Result := branchIf s (condNe s) off

/-- `B.GE` (41_branches R147). -/
def execBGe (off : BitVec 19) (s : State) : Result := branchIf s (condGe s) off

/-- `B.LT` (41_branches R146). -/
def execBLt (off : BitVec 19) (s : State) : Result := branchIf s (condLt s) off

end Sys2Proof.Machine
end

