-- ==== Sys2Proof/Machine/Extended.lean ====
section
/-! DEFINITION. The custom X-extended format (45_extended). -/

namespace Sys2Proof.Machine

/-- `AND` (45_extended R191). -/
def execAnd (rd rn rm : RegIdx) (s : State) : Result :=
  writeAndContinue s rd (readX s rn &&& readX s rm)

/-- `ORR` (45_extended R192). -/
def execOrr (rd rn rm : RegIdx) (s : State) : Result :=
  writeAndContinue s rd (readX s rn ||| readX s rm)

/-- `EOR` (45_extended R193). -/
def execEor (rd rn rm : RegIdx) (s : State) : Result :=
  writeAndContinue s rd (readX s rn ^^^ readX s rm)

/-- `MUL` (45_extended R194): the low 64 bits of the product. -/
def execMul (rd rn rm : RegIdx) (s : State) : Result :=
  writeAndContinue s rd (readX s rn * readX s rm)

/-- `LSL` (45_extended R195). -/
def execLsl (rd rn : RegIdx) (sh : BitVec 5) (s : State) : Result :=
  writeAndContinue s rd (readX s rn <<< shiftAmount sh)

/-- `LSR` (45_extended R196): zeros come in from the top. -/
def execLsr (rd rn : RegIdx) (sh : BitVec 5) (s : State) : Result :=
  writeAndContinue s rd (readX s rn >>> shiftAmount sh)

/-- `CMP` (45_extended R190): the one instruction that writes the flags; it writes no register. -/
def execCmp (rn rm : RegIdx) (s : State) : Result :=
  continueNext (setFlags s (readX s rn) (readX s rm))

/-- `RET` (45_extended R197): the target is not checked. -/
def execRet (rn : RegIdx) (s : State) : Result := continueAt s (readX s rn)

end Sys2Proof.Machine
end

