-- ==== Sys2Proof/Machine/Immediate.lean ====
section
/-! DEFINITION. Immediate arithmetic (42_immediate): the immediate is unsigned, the flags stay. -/

namespace Sys2Proof.Machine

/-- `ADDI` (42_immediate R160). -/
def execAddi (rd rn : RegIdx) (imm : BitVec 12) (s : State) : Result :=
  writeAndContinue s rd (readX s rn + zext imm)

/-- `SUBI` (42_immediate R161). -/
def execSubi (rd rn : RegIdx) (imm : BitVec 12) (s : State) : Result :=
  writeAndContinue s rd (readX s rn - zext imm)

end Sys2Proof.Machine
end

