-- ==== Sys2Proof/Machine/LoadStore.lean ====
section
/-! DEFINITION. Loads and stores (43_load_store): one aligned word, the check before any write. -/

namespace Sys2Proof.Machine

/-- `LDUR` (43_load_store R170): the word is zero-extended. -/
def execLdur (rt rn : RegIdx) (off : BitVec 9) (s : State) : Result :=
  match memRead s.mem (effectiveAddress s rn off) with
  | .ok v => writeAndContinue s rt (zext v)
  | .error f => raise f

/-- `STUR` (43_load_store R171): the low 32 bits are stored. -/
def execStur (rt rn : RegIdx) (off : BitVec 9) (s : State) : Result :=
  match memWrite s.mem (effectiveAddress s rn off) (lowWord (readX s rt)) with
  | .ok m => continueNext (setMem s m)
  | .error f => raise f

end Sys2Proof.Machine
end

