-- ==== Sys2Proof/Machine/Register.lean ====
section
/-! DEFINITION. Register arithmetic (44_register): wrapping, the flags stay. -/

namespace Sys2Proof.Machine

/-- `ADD` (44_register R180). -/
def execAdd (rd rn rm : RegIdx) (s : State) : Result :=
  writeAndContinue s rd (readX s rn + readX s rm)

/-- `SUB` (44_register R181): writes no flag. -/
def execSub (rd rn rm : RegIdx) (s : State) : Result :=
  writeAndContinue s rd (readX s rn - readX s rm)

end Sys2Proof.Machine
end

