-- ==== Sys2Proof/Machine/Sentinels.lean ====
section
/-! DEFINITION. The sentinel instructions (40_fetch section 2). -/

namespace Sys2Proof.Machine

/-- `NOP` (40_fetch R125): only `pc` moves. -/
def execNop (s : State) : Result := continueNext s

/-- `HALT` (40_fetch R124): `status <- Halted`, nothing else. The step's `Stop` is the next state whose status
is Halted (log entry 10). -/
def execHalt (s : State) : Result := .next (setHalted s)

end Sys2Proof.Machine
end

