-- ==== Sys2Proof/Machine/Dispatch.lean ====
section
/-! DEFINITION. exec: the `execute` arm of each instruction (40_fetch R121). -/

namespace Sys2Proof.Machine

def exec (i : Instr) (s : State) : Host.Outcome State Fault Refusal :=
  match i with
  | .b off => Sys2Proof.Machine.execB off s
  | .bl off => Sys2Proof.Machine.execBl off s
  | .cbz rt off => Sys2Proof.Machine.execCbz rt off s
  | .cbnz rt off => Sys2Proof.Machine.execCbnz rt off s
  | .bEq off => Sys2Proof.Machine.execBEq off s
  | .bNe off => Sys2Proof.Machine.execBNe off s
  | .bGe off => Sys2Proof.Machine.execBGe off s
  | .bLt off => Sys2Proof.Machine.execBLt off s
  | .addi rd rn imm => Sys2Proof.Machine.execAddi rd rn imm s
  | .subi rd rn imm => Sys2Proof.Machine.execSubi rd rn imm s
  | .add rd rn rm => Sys2Proof.Machine.execAdd rd rn rm s
  | .sub rd rn rm => Sys2Proof.Machine.execSub rd rn rm s
  | .ldur rt rn off => Sys2Proof.Machine.execLdur rt rn off s
  | .stur rt rn off => Sys2Proof.Machine.execStur rt rn off s
  | .and rd rn rm => Sys2Proof.Machine.execAnd rd rn rm s
  | .orr rd rn rm => Sys2Proof.Machine.execOrr rd rn rm s
  | .eor rd rn rm => Sys2Proof.Machine.execEor rd rn rm s
  | .mul rd rn rm => Sys2Proof.Machine.execMul rd rn rm s
  | .lsl rd rn sh => Sys2Proof.Machine.execLsl rd rn sh s
  | .lsr rd rn sh => Sys2Proof.Machine.execLsr rd rn sh s
  | .cmp rn rm => Sys2Proof.Machine.execCmp rn rm s
  | .ret rn => Sys2Proof.Machine.execRet rn s
  | .nop => Sys2Proof.Machine.execNop s
  | .halt => Sys2Proof.Machine.execHalt s

end Sys2Proof.Machine
end

