-- ==== Sys2Proof/Machine/Fetch.lean ====
section
/-! DEFINITION. Fetch, and the step for any configuration (40_fetch section 1); placing an instruction where
the next fetch finds it. -/

namespace Sys2Proof.Machine

/-- The fetch: `MemRead(pc, 4)` (40_fetch R122). -/
def fetch (s : State) : Except Fault Word32 := memRead s.mem s.pc

/-- The step for a configuration (40_fetch R121). The sentinels are `decodeWith`'s first tests (30_encoding
R84), and each meaning sets `status` itself. The status never prevents a step (10_state R34). -/
def cycle (c : Config) (s : State) : Result :=
  match fetch s with
  | .error f => raise f
  | .ok w =>
    match decodeWith c w with
    | .error _ => raise (.illegalInstruction w)
    | .ok i => exec i s

/-- `w` stored at `pc`; where `pc` cannot be fetched from, `pc` is set to 0, the reset vector (70_reset R252),
and `w` stored there. -/
def placeAtPc (s : State) (w : Word32) : State :=
  match check s.mem s.pc with
  | .ok i => setMem s (s.mem.setWord i w)
  | .error _ => { setMem s (s.mem.setWord 0 w) with pc := 0 }

end Sys2Proof.Machine
end

