-- ==== Sys2Proof/Machine/Step.lean ====
section
/-! DEFINITION. The step under the default configuration, and the host's way to place an instruction. -/

namespace Sys2Proof.Machine

/-- `step` (40_fetch R120, R121) under the default configuration. -/
def step (s : State) : Host.Outcome State Fault Refusal := cycle defaultConfig s

/-- `s` with the instruction `w` of `nbits` bits where the next step fetches it. A program comes to run from
reset because the host loads it (`loadProgram` or `storeWord`, 20_memory R59, R60): log entry 11. -/
def State.withFetchWord (s : State) (nbits w : Nat) : State := placeAtPc s (BitVec.ofNat 32 (w % 2 ^ nbits))

end Sys2Proof.Machine
end

