-- ==== Sys2Proof/Machine/TextForms.lean ====
section
/-! DEFINITION. Characters, numbers and blanks in text, shared by the program image (20_memory R60, R63) and the
assembler and disassembler (30_encoding section 7). The comment forms are not shared (90_conflicts C9). -/

namespace Sys2Proof.Machine

/-- White space. DESIGN CHOICE, log entry 6: blank, tab, line feed, vertical tab, form feed, carriage return. -/
def isBlank (c : Char) : Bool := c = ' ' || (9 ≤ c.toNat && c.toNat ≤ 13)

/-- White space taken off both ends. -/
def trim (t : Text) : Text := ((t.dropWhile isBlank).reverse.dropWhile isBlank).reverse

/-- One ASCII letter in upper case; every other character as it is. -/
def upperChar (c : Char) : Char :=
  if 97 ≤ c.toNat && c.toNat ≤ 122 then Char.ofNat (c.toNat - 32) else c

/-- One ASCII letter in lower case; every other character as it is. -/
def lowerChar (c : Char) : Char :=
  if 65 ≤ c.toNat && c.toNat ≤ 90 then Char.ofNat (c.toNat + 32) else c

/-- The value of a hexadecimal digit, of either case. -/
def digitVal (c : Char) : Option Nat :=
  if 48 ≤ c.toNat && c.toNat ≤ 57 then some (c.toNat - 48)
  else if 65 ≤ c.toNat && c.toNat ≤ 70 then some (c.toNat - 55)
  else if 97 ≤ c.toNat && c.toNat ≤ 102 then some (c.toNat - 87)
  else none

/-- A digit in upper case. -/
def digitChar (d : Nat) : Char := Char.ofNat (if d < 10 then 48 + d else 55 + d)

/-- The digits of `t` read onto `acc`; none where a character is no digit of the base. -/
def parseDigits (base : Nat) (acc : Nat) : Text → Option Nat
  | [] => some acc
  | c :: rest =>
    match digitVal c with
    | some d => if d < base then parseDigits base (base * acc + d) rest else none
    | none => none

/-- A number with at least one digit. -/
def parseNumber (base : Nat) (t : Text) : Option Nat :=
  if t = [] then none else parseDigits base 0 t

/-- The digits of `n`, most significant first; `fuel` bounds their number less one. -/
def renderDigits (base : Nat) : Nat → Nat → Text
  | 0, n => [digitChar (n % base)]
  | fuel + 1, n =>
    if n < base then [digitChar n] else renderDigits base fuel (n / base) ++ [digitChar (n % base)]

/-- A number in the base, with no leading zero. -/
def renderNumber (base n : Nat) : Text := renderDigits base n n

end Sys2Proof.Machine
end

