-- ==== Sys2Proof/Machine/Assembler.lean ====
section
/-! DEFINITION. The assembler (30_encoding R100 to R114): toolchain context, not hardware (00_scope R5). It is the
transcriber the spec asks for: it refuses what the source's assembler would truncate (R106, R107). -/

namespace Sys2Proof.Machine

/-- The assembler's errors (60_exceptions R222), and the transcriber's refusal of an operand that would be
truncated (30_encoding R106, R107). -/
inductive AsmError where
  | syntaxError
  | arityError
  | invalidOperand
  | rangeError
  | unknownInstruction
  | refused
deriving DecidableEq, Repr

/-- A line without its comment, which `;` or `//` introduces in assembly text (30_encoding R100). -/
def cutAsmComment : Text → Text
  | [] => []
  | ';' :: _ => []
  | '/' :: '/' :: _ => []
  | c :: rest => c :: cutAsmComment rest

/-- A comma or white space, which separate tokens (30_encoding R101). -/
def isSeparator (c : Char) : Bool := c = ',' || isBlank c

/-- The pieces between separators, empty ones among them; never an empty list. -/
def splitPieces : Text → List Text
  | [] => [[]]
  | c :: rest =>
    if isSeparator c then [] :: splitPieces rest
    else
      match splitPieces rest with
      | [] => [[c]]
      | piece :: pieces => (c :: piece) :: pieces

/-- The tokens of a line (30_encoding R101). DESIGN CHOICE, log entry 15: an empty piece (between two commas, or beside
a leading or trailing one) is no token and no error. -/
def tokens (t : Text) : List Text := (splitPieces t).filter (· ≠ [])

/-- A register token `X<n>`, `n` from 0 to 31, of either case (30_encoding R102). -/
def parseReg : Text → Except AsmError RegIdx
  | c :: digits =>
    if upperChar c = 'X' then
      match parseNumber 10 digits with
      | some n => if n < 32 then .ok (BitVec.ofNat 5 n) else .error .invalidOperand
      | none => .error .invalidOperand
    else .error .invalidOperand
  | [] => .error .invalidOperand

/-- The number after an immediate's `#`: `-` and decimal, or `0x` and hexadecimal, or decimal. -/
def parseSigned : Text → Option Int
  | '-' :: digits => (parseNumber 10 digits).map fun (n : Nat) => -(n : Int)
  | '0' :: 'x' :: digits => (parseNumber 16 digits).map Int.ofNat
  | '0' :: 'X' :: digits => (parseNumber 16 digits).map Int.ofNat
  | digits => (parseNumber 10 digits).map Int.ofNat

/-- An immediate token (30_encoding R103). DESIGN CHOICE, log entry 14: a token without the `#` is an
`InvalidOperand`. -/
def parseImm : Text → Except AsmError Int
  | '#' :: rest =>
    match parseSigned rest with
    | some v => .ok v
    | none => .error .invalidOperand
  | _ => .error .invalidOperand

/-- The base register's token `[Xn` (30_encoding R104). -/
def parseBase : Text → Except AsmError RegIdx
  | '[' :: reg => parseReg reg
  | _ => .error .syntaxError

/-- The offset's token `#imm]` (30_encoding R104). -/
def parseOffset (t : Text) : Except AsmError Int :=
  match t.getLast? with
  | some ']' => parseImm t.dropLast
  | _ => .error .syntaxError

/-- The operand shapes of the mnemonics (30_encoding R104), each with the instruction it makes. -/
inductive Shape where
  | sentinel (i : Instr)
  | branch (mk : BitVec 26 → Instr)
  | compareBranch (mk : RegIdx → BitVec 19 → Instr)
  | condBranch (mk : BitVec 19 → Instr)
  | immediate (mk : RegIdx → RegIdx → BitVec 12 → Instr)
  | memory (mk : RegIdx → RegIdx → BitVec 9 → Instr)
  | threeReg (mk : RegIdx → RegIdx → RegIdx → Instr)
  | shift (mk : RegIdx → RegIdx → BitVec 5 → Instr)
  | compare
  | ret

/-- The shape an upper-case mnemonic has (30_encoding R104). -/
def shapeOf (m : Text) : Option Shape :=
  if m = "NOP".toList then some (.sentinel .nop)
  else if m = "HALT".toList then some (.sentinel .halt)
  else if m = "B".toList then some (.branch .b)
  else if m = "BL".toList then some (.branch .bl)
  else if m = "CBZ".toList then some (.compareBranch .cbz)
  else if m = "CBNZ".toList then some (.compareBranch .cbnz)
  else if m = "B.EQ".toList then some (.condBranch .bEq)
  else if m = "B.NE".toList then some (.condBranch .bNe)
  else if m = "B.LT".toList then some (.condBranch .bLt)
  else if m = "B.GE".toList then some (.condBranch .bGe)
  else if m = "ADDI".toList then some (.immediate .addi)
  else if m = "SUBI".toList then some (.immediate .subi)
  else if m = "LDUR".toList then some (.memory .ldur)
  else if m = "STUR".toList then some (.memory .stur)
  else if m = "ADD".toList then some (.threeReg .add)
  else if m = "SUB".toList then some (.threeReg .sub)
  else if m = "AND".toList then some (.threeReg .and)
  else if m = "ORR".toList then some (.threeReg .orr)
  else if m = "EOR".toList then some (.threeReg .eor)
  else if m = "MUL".toList then some (.threeReg .mul)
  else if m = "LSL".toList then some (.shift .lsl)
  else if m = "LSR".toList then some (.shift .lsr)
  else if m = "CMP".toList then some .compare
  else if m = "RET".toList then some .ret
  else none

/-- A signed immediate of an `n`-bit field, or the given error (30_encoding R105, R106). -/
def signedField (n : Nat) (e : AsmError) (v : Int) : Except AsmError (BitVec n) :=
  if FitsSigned n v then .ok (BitVec.ofInt n v) else .error e

/-- The instruction of a shape with the operand tokens given, or the error (30_encoding R104 to R107, R110 to
R113). Operands are read from left to right and ranges checked last (log entry 8). -/
def assembleOperands (c : Config) : Shape → List Text → Except AsmError Instr
  | .sentinel i, [] => .ok i
  | .branch mk, [a] => do
    let v ← parseImm a
    let off ← signedField 26 .rangeError v
    .ok (mk off)
  | .compareBranch mk, [a, b] => do
    let rt ← parseReg a
    let v ← parseImm b
    let off ← signedField 19 .refused v
    .ok (mk rt off)
  | .condBranch mk, [a] => do
    let v ← parseImm a
    let off ← signedField 19 .refused v
    if (mk off).WF c then .ok (mk off) else .error .refused
  | .immediate mk, [a, b, d] => do
    let rd ← parseReg a
    let rn ← parseReg b
    let v ← parseImm d
    if 0 ≤ v ∧ v ≤ 4095 then .ok (mk rd rn (BitVec.ofInt 12 v)) else .error .rangeError
  | .memory mk, [a, b, d] => do
    let rt ← parseReg a
    let rn ← parseBase b
    let v ← parseOffset d
    let off ← signedField 9 .rangeError v
    .ok (mk rt rn off)
  | .threeReg mk, [a, b, d] => do
    let rd ← parseReg a
    let rn ← parseReg b
    let rm ← parseReg d
    .ok (mk rd rn rm)
  | .shift mk, [a, b, d] => do
    let rd ← parseReg a
    let rn ← parseReg b
    let v ← parseImm d
    if 0 ≤ v ∧ v ≤ 31 then .ok (mk rd rn (BitVec.ofInt 5 v))
    else if 32 ≤ v ∧ v ≤ 63 then .error .refused
    else .error .rangeError
  | .compare, [a, b] => do
    let rn ← parseReg a
    let rm ← parseReg b
    .ok (.cmp rn rm)
  | .ret, [] => .ok (.ret 31#5)
  | .ret, [a] => do
    let rn ← parseReg a
    .ok (.ret rn)
  | _, _ => .error .arityError

/-- The instruction that a mnemonic of either case (30_encoding R101) and its operand tokens name. -/
def assembleTokens (c : Config) (m : Text) (operands : List Text) : Except AsmError Instr :=
  match shapeOf (m.map upperChar) with
  | none => .error .unknownInstruction
  | some shape => assembleOperands c shape operands

/-- The instruction a line of assembly names. A line that is empty without its comment and outer white space holds
none (30_encoding R100); one that is not and yet has no token, a line of commas, is malformed input (R108, log entry
15); the first token selects the mnemonic (R101). -/
def assembleInstr (c : Config) (line : Text) : Except AsmError (Option Instr) :=
  let text := cutAsmComment line
  if trim text = [] then .ok none
  else
    match tokens text with
    | [] => .error .syntaxError
    | m :: operands =>
      match assembleTokens c m operands with
      | .ok i => .ok (some i)
      | .error e => .error e

/-- `assemble(text)`: the word of a line, none where it holds no instruction, or the error. -/
def assemble (c : Config) (line : Text) : Except AsmError (Option Word32) :=
  match assembleInstr c line with
  | .ok (some i) => .ok (some (encodeWith c.enc i))
  | .ok none => .ok none
  | .error e => .error e

end Sys2Proof.Machine
end

