-- ==== Sys2Proof/Machine/Image.lean ====
section
/-! DEFINITION. The host's program image: `loadProgram` and `dumpProgram` (20_memory R60 to R63). -/

namespace Sys2Proof.Machine

/-- A line without its comment, which `;` or `#` introduces in an image (20_memory R60). -/
def cutImageComment : Text → Text
  | [] => []
  | c :: rest => if c = ';' ∨ c = '#' then [] else c :: cutImageComment rest

/-- The digits of an image word, its optional `0x` taken off (20_memory R60). -/
def imageDigits : Text → Text
  | '0' :: 'x' :: rest => rest
  | t => t

/-- The word a line holds: 1 to 8 hexadecimal digits (D22). None for a blank, comment or unparseable line, which
is skipped and fills nothing (20_memory R60). -/
def parseImageLine (line : Text) : Option Word32 :=
  let digits := imageDigits (trim (cutImageComment line))
  if digits.length ≤ 8 then (parseNumber 16 digits).map (BitVec.ofNat 32) else none

/-- Words stored at successive indices from `i`. -/
def fillWords (m : Memory) (i : Nat) : List Word32 → Memory
  | [] => m
  | w :: rest => fillWords (m.setWord i w) (i + 1) rest

/-- `Memory.loadProgram(lines)` (20_memory R60, R61): memory cleared, then filled from index 0; the capacity fault
where there are more words than memory has. -/
def loadImage (capacity : Nat) (lines : List Text) : Except Fault Memory :=
  let words := lines.filterMap parseImageLine
  if capacity < words.length then .error .capacityExceeded
  else .ok (fillWords (Memory.zeroed capacity) 0 words)

/-- Eight hexadecimal digits of a word, upper case, zero-padded (20_memory R63). -/
def hexWord (w : Word32) : Text :=
  (List.range 8).map fun k => digitChar (getField w (28 - 4 * k) 4).toNat

/-- One line of a dump (20_memory R63). -/
def dumpLine (w : Word32) : Text := '0' :: 'x' :: hexWord w

/-- `Memory.dumpProgram(maxWords)` (20_memory R63): words `0` to `min(maxWords, MEM_WORDS) - 1`, all of them where no
`maxWords` is given. -/
def dumpImage (m : Memory) (maxWords : Option Nat) : List Text :=
  (List.range (min (maxWords.getD m.capacity) m.capacity)).map fun i => dumpLine (m.word i)

end Sys2Proof.Machine
end

