-- ==== Sys2Proof/Machine/Disassembler.lean ====
section
/-! DEFINITION. The disassembler (30_encoding R115, R116): toolchain context, not hardware. -/

namespace Sys2Proof.Machine

/-- What the spec leaves open of rendered text (30_encoding R116, D7, 93 U20), as an argument: nothing is proved for
one style alone. -/
structure Style where
  /-- Whether the raw hexadecimal value of an `Illegal` word carries `0x`. -/
  rawTag : Bool
  /-- Lower case for mnemonics, registers and hexadecimal digits of immediates. -/
  lower : Bool
  /-- Hexadecimal for immediates that are not negative. -/
  hexImm : Bool
  /-- Blanks after a comma. -/
  pad : Nat
deriving DecidableEq, Repr

/-- Each instruction's mnemonic, as spec/opcode_table.json spells it. -/
def mnemonic : Instr → Text
  | .b _ => "B".toList
  | .bl _ => "BL".toList
  | .cbz _ _ => "CBZ".toList
  | .cbnz _ _ => "CBNZ".toList
  | .bEq _ => "B.EQ".toList
  | .bNe _ => "B.NE".toList
  | .bGe _ => "B.GE".toList
  | .bLt _ => "B.LT".toList
  | .addi _ _ _ => "ADDI".toList
  | .subi _ _ _ => "SUBI".toList
  | .add _ _ _ => "ADD".toList
  | .sub _ _ _ => "SUB".toList
  | .ldur _ _ _ => "LDUR".toList
  | .stur _ _ _ => "STUR".toList
  | .and _ _ _ => "AND".toList
  | .orr _ _ _ => "ORR".toList
  | .eor _ _ _ => "EOR".toList
  | .mul _ _ _ => "MUL".toList
  | .lsl _ _ _ => "LSL".toList
  | .lsr _ _ _ => "LSR".toList
  | .cmp _ _ => "CMP".toList
  | .ret _ => "RET".toList
  | .nop => "NOP".toList
  | .halt => "HALT".toList

/-- Letters in the style's case. -/
def Style.case (st : Style) (t : Text) : Text := if st.lower then t.map lowerChar else t

/-- A register token (30_encoding R102). -/
def renderReg (st : Style) (r : RegIdx) : Text := st.case ('X' :: renderNumber 10 r.toNat)

/-- An immediate token (30_encoding R103). -/
def renderImm (st : Style) (v : Int) : Text :=
  if v < 0 then '#' :: '-' :: renderNumber 10 v.natAbs
  else if st.hexImm then '#' :: '0' :: 'x' :: st.case (renderNumber 16 v.natAbs)
  else '#' :: renderNumber 10 v.natAbs

/-- The operand tokens, in the order of 30_encoding R104; `CMP` has no destination and a shift's amount is an
immediate (R116). -/
def operandTokens (st : Style) : Instr → List Text
  | .b off | .bl off => [renderImm st off.toInt]
  | .cbz rt off | .cbnz rt off => [renderReg st rt, renderImm st off.toInt]
  | .bEq off | .bNe off | .bGe off | .bLt off => [renderImm st off.toInt]
  | .addi rd rn imm | .subi rd rn imm => [renderReg st rd, renderReg st rn, renderImm st imm.toNat]
  | .ldur rt rn off | .stur rt rn off =>
    [renderReg st rt, '[' :: renderReg st rn, renderImm st off.toInt ++ [']']]
  | .add rd rn rm | .sub rd rn rm | .and rd rn rm | .orr rd rn rm | .eor rd rn rm | .mul rd rn rm =>
    [renderReg st rd, renderReg st rn, renderReg st rm]
  | .lsl rd rn sh | .lsr rd rn sh => [renderReg st rd, renderReg st rn, renderImm st sh.toNat]
  | .cmp rn rm => [renderReg st rn, renderReg st rm]
  | .ret rn => [renderReg st rn]
  | .nop | .halt => []

/-- Tokens with a comma and the style's blanks between them. -/
def joinTokens (st : Style) : List Text → Text
  | [] => []
  | [t] => t
  | t :: u :: rest => t ++ (',' :: List.replicate st.pad ' ') ++ joinTokens st (u :: rest)

/-- An instruction's text: the mnemonic, and the operands after a blank (30_encoding R104, R116). -/
def renderInstr (st : Style) (i : Instr) : Text :=
  match operandTokens st i with
  | [] => st.case (mnemonic i)
  | ops => st.case (mnemonic i) ++ (' ' :: joinTokens st ops)

/-- `disassemble(word)` (30_encoding R115): never fails; an `Illegal` word renders as its raw hexadecimal value. -/
def disassemble (st : Style) (c : Config) (w : Word32) : Text :=
  match decodeWith c w with
  | .ok i => renderInstr st i
  | .error _ => if st.rawTag then dumpLine w else hexWord w

end Sys2Proof.Machine
end

