-- ==== Sys2Proof/Machine/RunLoop.lean ====
section
/-! DEFINITION. The host's bulk run loop and the three ways a run ends (60_exceptions R243, 70_reset R261). -/

namespace Sys2Proof.Machine

/-- How a run ended. -/
inductive Verdict where
  | halted                  -- a step fetched `HALT`
  | faulted (f : Fault)     -- a step raised a fault
  | refused (r : Refusal)   -- a step was given no meaning; no step of this model is
  | capReached              -- the host's cap; not an end of the program
deriving DecidableEq, Repr

/-- A run's verdict, its final state, and how many steps returned a result (70_reset R261). -/
structure RunResult where
  verdict : Verdict
  final   : State
  steps   : Nat
deriving DecidableEq, Repr

/-- One more step counted. -/
def RunResult.countStep (r : RunResult) : RunResult := ⟨r.verdict, r.final, r.steps + 1⟩

/-- `run(s, cap)` (60_exceptions R243). The final state of a faulted run is the one before the faulting step,
and that step is counted (70_reset R261, the spec's decision D28). -/
def runLoop (c : Config) : Nat → State → RunResult
  | 0, s => ⟨.capReached, s, 0⟩
  | cap + 1, s =>
    match cycle c s with
    | .fault f => ⟨.faulted f, s, 1⟩
    | .refused r => ⟨.refused r, s, 1⟩
    | .next t =>
      match t.status with
      | .halted => ⟨.halted, t, 1⟩
      | .running => (runLoop c cap t).countStep

end Sys2Proof.Machine
end

