-- ==== Sys2Proof/Machine/HostInterface.lean ====
section
/-! DEFINITION. What the host can do to the machine, between two steps (60_exceptions section 4). -/

namespace Sys2Proof.Machine

/-- The host's operations (60_exceptions R242). -/
inductive HostAction where
  | step
  | getX (i : Int)
  | setX (i : Int) (v : Word)
  | getPC
  | setPC (v : Word)
  | getFlags
  | reset
  | loadWord (a : Word)
  | storeWord (a : Word) (v : Word32)
  | clear
  | loadProgram (lines : List Text)
  | dumpProgram (maxWords : Option Nat)
  | run
deriving DecidableEq, Repr

/-- What an operation returns to the host. -/
inductive HostReply where
  | done
  | stepped (running : Bool)   -- `step`: true for Continue, false for Stop (60_exceptions R236)
  | reg (v : Word)
  | flags (z n : Bool)
  | word (v : Word32)
  | text (lines : List Text)
  | ended (verdict : Verdict) (steps : Nat)
  | fault (f : Fault)
  | refused (r : Refusal)
deriving DecidableEq, Repr

/-- The register a host index names: 0 to 31, or `RegisterIndexError` (60_exceptions R237). -/
def hostIndex (i : Int) : Except Fault RegIdx :=
  if 0 ≤ i ∧ i ≤ 31 then .ok (BitVec.ofInt 5 i) else .error (.registerIndexError i)

/-- `CPU.step` (60_exceptions R236): the fault propagates and the state stays as it was (40_fetch R128). -/
def hostStep (c : Config) (s : State) : HostReply × State :=
  match cycle c s with
  | .next t => (.stepped (t.status == .running), t)
  | .fault f => (.fault f, s)
  | .refused r => (.refused r, s)

/-- `CPU.getX(i)` (60_exceptions R237). -/
def hostGetX (i : Int) (s : State) : HostReply × State :=
  match hostIndex i with
  | .ok r => (.reg (readX s r), s)
  | .error f => (.fault f, s)

/-- `CPU.setX(i, v)` (60_exceptions R237). -/
def hostSetX (i : Int) (v : Word) (s : State) : HostReply × State :=
  match hostIndex i with
  | .ok r => (.done, writeX s r v)
  | .error f => (.fault f, s)

/-- `CPU.setPC(v)`: no check (60_exceptions R238). -/
def hostSetPC (v : Word) (s : State) : HostReply × State := (.done, { s with pc := v })

/-- `CPU.reset()` (70_reset R250): the CPU at its reset values, memory as it was (R251). -/
def cpuReset (s : State) : State :=
  { s with x := Vector.replicate 32 0, pc := 0, z := false, n := false, status := .running }

/-- `Memory.loadWord(addr)` (20_memory R59). -/
def hostLoadWord (a : Word) (s : State) : HostReply × State :=
  match memRead s.mem a with
  | .ok v => (.word v, s)
  | .error f => (.fault f, s)

/-- `Memory.storeWord(addr, value)` (20_memory R59). -/
def hostStoreWord (a : Word) (v : Word32) (s : State) : HostReply × State :=
  match memWrite s.mem a v with
  | .ok m => (.done, setMem s m)
  | .error f => (.fault f, s)

/-- Memory cleared: every word zero, the CPU as it was (20_memory R51, 70_reset R251). -/
def clearMemory (s : State) : State := setMem s (Memory.zeroed s.mem.capacity)

/-- The bulk run (60_exceptions R243). -/
def hostRun (c : Config) (s : State) : HostReply × State :=
  let r := runLoop c c.runCap s
  (.ended r.verdict r.steps, r.final)

/-- The host's operations, as what they return and the state after: which reply `r` and which next state `t` the
operation `a` may have from `s`. Only `loadProgram` beyond the capacity leaves a choice: memory may then hold any
value (20_memory R61, log entry 5), the CPU being as it was. -/
def hostMay (c : Config) (a : HostAction) (s : State) (r : HostReply) (t : State) : Prop :=
  match a with
  | .step => (r, t) = hostStep c s
  | .getX i => (r, t) = hostGetX i s
  | .setX i v => (r, t) = hostSetX i v s
  | .getPC => (r, t) = (.reg s.pc, s)
  | .setPC v => (r, t) = hostSetPC v s
  | .getFlags => (r, t) = (.flags s.z s.n, s)
  | .reset => (r, t) = (.done, cpuReset s)
  | .loadWord addr => (r, t) = hostLoadWord addr s
  | .storeWord addr v => (r, t) = hostStoreWord addr v s
  | .clear => (r, t) = (.done, clearMemory s)
  | .loadProgram lines =>
    match loadImage s.mem.capacity lines with
    | .ok m => (r, t) = (.done, setMem s m)
    | .error f => r = .fault f ∧ ∃ m : Memory, m.WF ∧ m.capacity = s.mem.capacity ∧ t = setMem s m
  | .dumpProgram maxWords => (r, t) = (.text (dumpImage s.mem maxWords), s)
  | .run => (r, t) = hostRun c s

end Sys2Proof.Machine
end

