-- ==== Sys2Proof/Safety.lean ====
section
/-! DEFINITION. What counts as a safe state and a safe run, and the words that claims about a step use. -/

namespace Sys2Proof.Machine

/-- The invariant of the machine: memory is well formed. Registers, `pc`, flags and status may hold any value. -/
abbrev State.Inv (s : State) : Prop := s.mem.WF

/-- The states that some number of steps reaches from `s`. -/
inductive Reaches (c : Config) : State → State → Prop where
  | here (s : State) : Reaches c s s
  | step {s t u : State} : cycle c s = .next t → Reaches c t u → Reaches c s u

/-- Exactly `k` steps lead from `s` to `u`, each of them answering a Running state. -/
inductive RunsFor (c : Config) : Nat → State → State → Prop where
  | here (s : State) : RunsFor c 0 s s
  | step {k : Nat} {s t u : State} : cycle c s = .next t → t.status = .running → RunsFor c k t u →
      RunsFor c (k + 1) s u

/-- A safe run: no state that steps reach from `s` faults at its next step. -/
def Faultless (c : Config) (s : State) : Prop := ∀ t, Reaches c s t → ∀ f, cycle c t ≠ .fault f

/-- An address that every access takes: aligned, and a word of the memory (20_memory R43, R52). -/
abbrev Accessible (m : Memory) (a : Word) : Prop := a.toNat % 4 = 0 ∧ a.toNat / 4 < m.capacity

/-- Every register but `rd` is as before. -/
abbrev OtherRegsKept (s t : State) (rd : RegIdx) : Prop := ∀ r, r ≠ rd → readX t r = readX s r

/-- Every register is as before. -/
abbrev RegsKept (s t : State) : Prop := ∀ r, readX t r = readX s r

/-- Both flags are as before. -/
abbrev FlagsKept (s t : State) : Prop := t.z = s.z ∧ t.n = s.n

/-- Every byte of memory, and its capacity, is as before. -/
abbrev MemKept (s t : State) : Prop :=
  t.mem.capacity = s.mem.capacity ∧ ∀ a, t.mem.readByte a = s.mem.readByte a

/-- Every byte of memory outside the four from `a` on, and the capacity, is as before. -/
abbrev MemKeptOutsideWord (s t : State) (a : Nat) : Prop :=
  t.mem.capacity = s.mem.capacity ∧ ∀ b, (b < a ∨ a + 4 ≤ b) → t.mem.readByte b = s.mem.readByte b

/-- The step went on: `pc` at the next instruction, `status` Running (10_state R27, R33). -/
abbrev WentOn (s t : State) : Prop := t.pc = s.pc + 4 ∧ t.status = .running

/-- Everything of the CPU is as before; memory may differ. -/
abbrev CpuKept (s t : State) : Prop := RegsKept s t ∧ t.pc = s.pc ∧ FlagsKept s t ∧ t.status = s.status

/-- The register an instruction writes, if any (10_state R25). -/
def destinationOf : Instr → Option RegIdx
  | .addi rd _ _ | .subi rd _ _ | .add rd _ _ | .sub rd _ _ | .and rd _ _ | .orr rd _ _ | .eor rd _ _
  | .mul rd _ _ | .lsl rd _ _ | .lsr rd _ _ => some rd
  | .ldur rt _ _ => some rt
  | .bl _ => some 30#5
  | .b _ | .cbz _ _ | .cbnz _ _ | .bEq _ | .bNe _ | .bGe _ | .bLt _ | .stur _ _ _ | .cmp _ _ | .ret _
  | .nop | .halt => none

/-- The registers an instruction reads as source operands (10_state R25). -/
def sourcesOf : Instr → List RegIdx
  | .addi _ rn _ | .subi _ rn _ | .ldur _ rn _ | .lsl _ rn _ | .lsr _ rn _ | .ret rn => [rn]
  | .stur rt rn _ => [rt, rn]
  | .add _ rn rm | .sub _ rn rm | .and _ rn rm | .orr _ rn rm | .eor _ rn rm | .mul _ rn rm | .cmp rn rm => [rn, rm]
  | .cbz rt _ | .cbnz rt _ => [rt]
  | .b _ | .bl _ | .bEq _ | .bNe _ | .bGe _ | .bLt _ | .nop | .halt => []

/-- The instructions that read the flags (10_state R30). -/
def readsFlags : Instr → Bool
  | .bEq _ | .bNe _ | .bGe _ | .bLt _ => true
  | .b _ | .bl _ | .cbz _ _ | .cbnz _ _ | .addi _ _ _ | .subi _ _ _ | .add _ _ _ | .sub _ _ _ | .ldur _ _ _
  | .stur _ _ _ | .and _ _ _ | .orr _ _ _ | .eor _ _ _ | .mul _ _ _ | .lsl _ _ _ | .lsr _ _ _ | .cmp _ _ | .ret _
  | .nop | .halt => false

end Sys2Proof.Machine
end

