-- ==== Sys2Proof/Certificates/Slice0/Obligations.lean ====
section
/-! DEFINITION. The statements for the provers. Each docstring names the rule of spec/ it formalises. Statements about
the decoder and the step hold for every configuration: every well-formed encoding assignment and both readings of
`BCOND_OFFSET` (30_encoding R81, R82). -/

open Sys2Proof Sys2Proof.Machine

/-! ## Reset and the host's CPU operations -/

/-- 10_state R38: the reset values of the CPU, as `CPU.reset` sets them and as a newly created CPU holds them. -/
def Obligations.ResetValuesOfTheCpu : Prop :=
  ∀ s : State, (∃ c, s = State.created c) ∨ (∃ u, s = cpuReset u) →
    (∀ r, readX s r = 0) ∧ s.pc = 0 ∧ s.z = false ∧ s.n = false ∧ s.status = .running

/-- 20_memory R51, 70_reset R251 (the spec's decision D17): a newly created memory and a cleared one hold zero in every
word, and an image is loaded onto zeroes; clearing leaves the CPU as it was, and `CPU.reset` leaves memory as it was. -/
def Obligations.ClearAndResetAreIndependent : Prop :=
  (∀ (c : Config) (i : Nat), (State.created c).mem.word i = 0) ∧
  (∀ (c : Config) (s t : State) (r : HostReply), hostMay c .clear s r t →
    r = .done ∧ CpuKept s t ∧ t.mem.capacity = s.mem.capacity ∧ ∀ i, t.mem.word i = 0) ∧
  (∀ (c : Config) (s t : State) (r : HostReply), hostMay c (.loadProgram []) s r t →
    r = .done ∧ CpuKept s t ∧ t.mem.capacity = s.mem.capacity ∧ ∀ i, t.mem.word i = 0) ∧
  (∀ (c : Config) (s t : State) (r : HostReply), hostMay c .reset s r t →
    r = .done ∧ t = cpuReset s ∧ t.mem = s.mem)

/-- 60_exceptions R237, R238, R239 (the spec's decisions D26, D13): the host's register, `pc` and flag accesses. That a host
index is any integer, so that there are negative ones and the error carries them, is the model's choice: log entry 12. -/
def Obligations.HostCpuAccess : Prop :=
  ∀ (c : Config) (s t : State) (r : HostReply),
    (∀ i : RegIdx, hostMay c (.getX i.toNat) s r t ↔ r = .reg (readX s i) ∧ t = s) ∧
    (∀ (i : RegIdx) (v : Word), hostMay c (.setX i.toNat v) s r t ↔ r = .done ∧ t = writeX s i v) ∧
    (∀ (i : Int) (v : Word), i < 0 ∨ 31 < i →
      (hostMay c (.getX i) s r t ↔ r = .fault (.registerIndexError i) ∧ t = s) ∧
      (hostMay c (.setX i v) s r t ↔ r = .fault (.registerIndexError i) ∧ t = s)) ∧
    (hostMay c .getPC s r t ↔ r = .reg s.pc ∧ t = s) ∧
    (∀ v : Word, hostMay c (.setPC v) s r t → r = .done ∧ t.pc = v ∧ RegsKept s t ∧ FlagsKept s t ∧
      t.status = s.status ∧ t.mem = s.mem) ∧
    (hostMay c .getFlags s r t ↔ r = .flags s.z s.n ∧ t = s)

/-- 10_state R21, R22: every register, `X31` included, keeps the last value written to it, and a write changes no
other register. -/
def Obligations.EveryRegisterIsOrdinary : Prop :=
  ∀ (s : State) (r : RegIdx) (v : Word),
    readX (writeX s r v) r = v ∧ (∀ q, q ≠ r → readX (writeX s r v) q = readX s q)

/-! ## Memory -/

/-- 20_memory R43: the check, alignment before bounds (the spec's decision D11); and fetch, `LDUR`, `STUR`, `loadWord` and
`storeWord` fault on an address exactly as it says. -/
def Obligations.CheckDecidesEveryAccess : Prop :=
  (∀ (m : Memory) (a : Word),
    (a.toNat % 4 ≠ 0 → check m a = .error (.alignmentError a)) ∧
    (a.toNat % 4 = 0 → m.capacity ≤ a.toNat / 4 → check m a = .error (.outOfBounds a)) ∧
    (a.toNat % 4 = 0 → a.toNat / 4 < m.capacity → check m a = .ok (a.toNat / 4))) ∧
  (∀ (s : State) (f : Fault),
    (fetch s = .error f ↔ check s.mem s.pc = .error f) ∧
    (∀ rt rn off, exec (.ldur rt rn off) s = .fault f ↔ check s.mem (effectiveAddress s rn off) = .error f) ∧
    (∀ rt rn off, exec (.stur rt rn off) s = .fault f ↔ check s.mem (effectiveAddress s rn off) = .error f) ∧
    (∀ c a, hostMay c (.loadWord a) s (.fault f) s ↔ check s.mem a = .error f) ∧
    (∀ c a v, hostMay c (.storeWord a v) s (.fault f) s ↔ check s.mem a = .error f))

/-- 20_memory R46: an aligned address that is negative when read as signed is out of bounds, whatever the capacity up
to 2^61 words. -/
def Obligations.WrappedAddressIsOutOfBounds : Prop :=
  ∀ (m : Memory) (a : Word), m.capacity ≤ 2 ^ 61 → a.toInt < 0 →
    (a.toInt % 4 = 0 → check m a = .error (.outOfBounds a)) ∧
    (a.toInt % 4 ≠ 0 → check m a = .error (.alignmentError a))

/-- 20_memory R44, R45: a read returns the addressed word; a write replaces it and no other word, byte for byte, and
a failed check writes nothing. -/
def Obligations.MemoryReadsBackWhatWasWritten : Prop :=
  ∀ (m : Memory) (a : Word) (v : Word32), m.WF →
    (∀ f, memRead m a = .error f ↔ check m a = .error f) ∧
    (∀ f, memWrite m a v = .error f ↔ check m a = .error f) ∧
    (∀ i, check m a = .ok i → memRead m a = .ok (m.word i) ∧
      ∃ m', memWrite m a v = .ok m' ∧ m'.WF ∧ m'.capacity = m.capacity ∧ m'.word i = v ∧
        (∀ j, j ≠ i → m'.word j = m.word j) ∧
        (∀ b, b < 4 * i ∨ 4 * i + 4 ≤ b → m'.readByte b = m.readByte b))

/-- 20_memory R59: the host's word accesses are `MemRead` and `MemWrite`, faults included; the CPU is as it was. -/
def Obligations.HostWordAccess : Prop :=
  ∀ (c : Config) (s t : State) (r : HostReply) (a : Word) (v : Word32),
    (hostMay c (.loadWord a) s r t ↔
      t = s ∧ ((∃ w, memRead s.mem a = .ok w ∧ r = .word w) ∨ (∃ f, memRead s.mem a = .error f ∧ r = .fault f))) ∧
    (hostMay c (.storeWord a v) s r t ↔
      (∃ m, memWrite s.mem a v = .ok m ∧ r = .done ∧ t = setMem s m) ∨
      (∃ f, memWrite s.mem a v = .error f ∧ r = .fault f ∧ t = s))

/-! ## Encoding -/

/-- 30_encoding R82: the default assignment is well formed, and every word that carries a row's match under its mask
decodes to that row's instruction, with the operands of R94 (`Low15`). -/
def Obligations.DefaultOpcodeTableDecodes : Prop :=
  defaultEnc.WF ∧ ∀ w : Word32,
    (w &&& 0xFC000000 = 0x14000000 → decode w = .ok (.b (getField w 0 26))) ∧
    (w &&& 0xFC000000 = 0x94000000 → decode w = .ok (.bl (getField w 0 26))) ∧
    (w &&& 0xFF000000 = 0xB4000000 → decode w = .ok (.cbz (getField w 0 5) (getField w 5 19))) ∧
    (w &&& 0xFF000000 = 0xB5000000 → decode w = .ok (.cbnz (getField w 0 5) (getField w 5 19))) ∧
    (w &&& 0xFFF00000 = 0x54000000 → decode w = .ok (.bEq ((getField w 5 15).signExtend 19))) ∧
    (w &&& 0xFFF00000 = 0x54100000 → decode w = .ok (.bNe ((getField w 5 15).signExtend 19))) ∧
    (w &&& 0xFFF00000 = 0x54A00000 → decode w = .ok (.bGe ((getField w 5 15).signExtend 19))) ∧
    (w &&& 0xFFF00000 = 0x54B00000 → decode w = .ok (.bLt ((getField w 5 15).signExtend 19))) ∧
    (w &&& 0xFFC00000 = 0x91000000 →
      decode w = .ok (.addi (getField w 0 5) (getField w 5 5) (getField w 10 12))) ∧
    (w &&& 0xFFC00000 = 0xD1000000 →
      decode w = .ok (.subi (getField w 0 5) (getField w 5 5) (getField w 10 12))) ∧
    (w &&& 0xFFE00000 = 0x8B000000 → decode w = .ok (.add (getField w 0 5) (getField w 5 5) (getField w 16 5))) ∧
    (w &&& 0xFFE00000 = 0xCB000000 → decode w = .ok (.sub (getField w 0 5) (getField w 5 5) (getField w 16 5))) ∧
    (w &&& 0xFFE00000 = 0xF8400000 → decode w = .ok (.ldur (getField w 0 5) (getField w 5 5) (getField w 12 9))) ∧
    (w &&& 0xFFE00000 = 0xF8000000 → decode w = .ok (.stur (getField w 0 5) (getField w 5 5) (getField w 12 9))) ∧
    (w &&& 0xFFE0FC00 = 0x8A000000 → decode w = .ok (.and (getField w 0 5) (getField w 5 5) (getField w 16 5))) ∧
    (w &&& 0xFFE0FC00 = 0x8A000400 → decode w = .ok (.orr (getField w 0 5) (getField w 5 5) (getField w 16 5))) ∧
    (w &&& 0xFFE0FC00 = 0x8A000800 → decode w = .ok (.eor (getField w 0 5) (getField w 5 5) (getField w 16 5))) ∧
    (w &&& 0xFFE0FC00 = 0x8A000C00 → decode w = .ok (.mul (getField w 0 5) (getField w 5 5) (getField w 16 5))) ∧
    (w &&& 0xFFE0FC00 = 0x8A001000 → decode w = .ok (.lsl (getField w 0 5) (getField w 5 5) (getField w 16 5))) ∧
    (w &&& 0xFFE0FC00 = 0x8A001400 → decode w = .ok (.lsr (getField w 0 5) (getField w 5 5) (getField w 16 5))) ∧
    (w &&& 0xFFE0FC00 = 0x8A001800 → decode w = .ok (.cmp (getField w 5 5) (getField w 16 5))) ∧
    (w &&& 0xFFE0FC00 = 0x8A001C00 → decode w = .ok (.ret (getField w 5 5))) ∧
    (w &&& 0xFFFFFFFF = 0xD503201F → decode w = .ok .nop) ∧
    (w &&& 0xFFFFFFFF = 0xFFFFFFFF → decode w = .ok .halt)

/-- 95_test_vectors V1: a few words and what they decode to. -/
def Obligations.SampleWordsDecode : Prop :=
  decode 0x17FFFFFF = .ok (.b (-1)) ∧ decode 0x94000003 = .ok (.bl 3) ∧
  decode 0xB4800001 = .ok (.cbz 1 (-262144)) ∧ decode 0xB57FFFE0 = .ok (.cbnz 0 262143) ∧
  decode 0x54B0005F = .ok (.bLt 2) ∧ decode 0x5408001F = .ok (.bEq (-16384)) ∧
  decode 0x913FFC21 = .ok (.addi 1 1 4095) ∧ decode 0xCB020023 = .ok (.sub 3 1 2) ∧
  decode 0xF85FC041 = .ok (.ldur 1 2 (-4)) ∧ decode 0xF80FF3DF = .ok (.stur 31 30 255) ∧
  decode 0x8A1F1441 = .ok (.lsr 1 2 31) ∧ decode 0x8A01185F = .ok (.cmp 2 1) ∧
  decode 0x8A001FC0 = .ok (.ret 30) ∧ decode 0xD503201F = .ok .nop ∧ decode 0xFFFFFFFF = .ok .halt

/-- 30_encoding R117: decoding the encoder's word of any well-formed instruction gives it back, under every well-formed
assignment and both readings of `BCOND_OFFSET`. -/
def Obligations.DecodeOfEncode : Prop :=
  ∀ (c : Config) (i : Instr), c.enc.WF → i.WF c = true → decodeWith c (encodeWith c.enc i) = .ok i

/-- 30_encoding R87, R91, R114: whatever a word decodes to is well formed, and encoding that gives the word back with
its ignored bits made canonical. -/
def Obligations.EncodeOfDecodeIsCanonical : Prop :=
  ∀ (c : Config) (w : Word32) (i : Instr), decodeWith c w = .ok i →
    i.WF c = true ∧ encodeWith c.enc i = (w &&& ~~~ ignoredBits i) ||| ignoredFill i

/-- 30_encoding R87: any value in the ignored bits decodes to the same instruction. -/
def Obligations.IgnoredBitsDoNotMatter : Prop :=
  ∀ (c : Config) (w w' : Word32) (i : Instr), c.enc.WF → decodeWith c w = .ok i →
    w' &&& ~~~ ignoredBits i = w &&& ~~~ ignoredBits i → decodeWith c w' = .ok i

/-- 30_encoding R81, R83: under a well-formed assignment at most one opcode pattern matches a word, and none matches
a sentinel, so the order of the tests changes no result. -/
def Obligations.OpcodePatternsAreExclusive : Prop :=
  ∀ (e : Enc) (w : Word32) (p q : Pattern), e.WF → p ∈ e.patterns → q ∈ e.patterns → p.Matches w → q.Matches w →
    p = q ∧ w ≠ haltWord ∧ w ≠ e.nopWord

/-- 30_encoding R84, R85 (the spec's decision D6), R89: which words are `Illegal`. The second half is R89's list, which the
spec derives from R84 and R82 and which holds of the default assignment alone: log entry 3. -/
def Obligations.IllegalWords : Prop :=
  (∀ (c : Config) (w : Word32), c.enc.WF →
    ((∃ r, decodeWith c w = .error r) ↔
      w ≠ haltWord ∧ w ≠ c.enc.nopWord ∧
      ((∀ p ∈ c.enc.patterns, ¬ p.Matches w) ∨
       (getField w 24 8 = c.enc.opcBcond ∧ getField w 20 4 ∉ c.enc.conds) ∨
       (getField w 21 11 = c.enc.opcX ∧ getField w 10 6 ∉ c.enc.functs)))) ∧
  (∀ w ∈ [0x00000000, 0x12345678, 0xFFFFFFFE, 0x54F0003F, 0x8A00FC00], ∃ r, decode w = .error r)

/-- 00_scope R13, R14, R17: what the bit-field primitives give. -/
def Obligations.BitFieldPrimitives : Prop :=
  (∀ (w : Word32) (lo len k : Nat), (getField w lo len).getLsbD k = (decide (k < len) && w.getLsbD (lo + k))) ∧
  (∀ (w v : Word32) (hi lo k : Nat), lo ≤ hi → hi < 32 → k < 32 →
    (setField w hi lo v).getLsbD k = if lo ≤ k ∧ k ≤ hi then v.getLsbD (k - lo) else w.getLsbD k) ∧
  (∀ (n : Nat) (v : BitVec n), 0 < n → n ≤ 32 → (sext v).toInt = v.toInt ∧ (zext v).toNat = v.toNat)

/-! ## Instructions: encoding, result and frame

Each statement has its rule's default word (the numbers are the spec's own choice, 30_encoding R82, log entry 3), the
decoding of its words under every well-formed assignment, and what the instruction does from every state. -/

/-- 42_immediate R160, R161: `ADDI` and `SUBI`. -/
def Obligations.ImmediateArithmetic : Prop :=
  (∀ (rd rn : RegIdx) (imm : BitVec 12),
    (encode (.addi rd rn imm)).toNat = 0x91000000 + imm.toNat * 2 ^ 10 + rn.toNat * 2 ^ 5 + rd.toNat ∧
    (encode (.subi rd rn imm)).toNat = 0xD1000000 + imm.toNat * 2 ^ 10 + rn.toNat * 2 ^ 5 + rd.toNat) ∧
  (∀ (c : Config) (w : Word32), c.enc.WF →
    (getField w 22 10 = c.enc.opcAddi →
      decodeWith c w = .ok (.addi (getField w 0 5) (getField w 5 5) (getField w 10 12))) ∧
    (getField w 22 10 = c.enc.opcSubi →
      decodeWith c w = .ok (.subi (getField w 0 5) (getField w 5 5) (getField w 10 12)))) ∧
  (∀ (s : State) (rd rn : RegIdx) (imm : BitVec 12),
    (∃ t, exec (.addi rd rn imm) s = .next t ∧
      (readX t rd).toNat = ((readX s rn).toNat + imm.toNat) % 2 ^ 64 ∧
      OtherRegsKept s t rd ∧ FlagsKept s t ∧ MemKept s t ∧ WentOn s t) ∧
    (∃ t, exec (.subi rd rn imm) s = .next t ∧
      (readX t rd).toNat = ((readX s rn).toNat + 2 ^ 64 - imm.toNat) % 2 ^ 64 ∧
      OtherRegsKept s t rd ∧ FlagsKept s t ∧ MemKept s t ∧ WentOn s t))

/-- 44_register R180, R181: `ADD` and `SUB`. -/
def Obligations.RegisterArithmetic : Prop :=
  (∀ rd rn rm : RegIdx,
    (encode (.add rd rn rm)).toNat = 0x8B000000 + rm.toNat * 2 ^ 16 + rn.toNat * 2 ^ 5 + rd.toNat ∧
    (encode (.sub rd rn rm)).toNat = 0xCB000000 + rm.toNat * 2 ^ 16 + rn.toNat * 2 ^ 5 + rd.toNat) ∧
  (∀ (c : Config) (w : Word32), c.enc.WF →
    (getField w 21 11 = c.enc.opcAdd →
      decodeWith c w = .ok (.add (getField w 0 5) (getField w 5 5) (getField w 16 5))) ∧
    (getField w 21 11 = c.enc.opcSub →
      decodeWith c w = .ok (.sub (getField w 0 5) (getField w 5 5) (getField w 16 5)))) ∧
  (∀ (s : State) (rd rn rm : RegIdx),
    (∃ t, exec (.add rd rn rm) s = .next t ∧
      (readX t rd).toNat = ((readX s rn).toNat + (readX s rm).toNat) % 2 ^ 64 ∧
      OtherRegsKept s t rd ∧ FlagsKept s t ∧ MemKept s t ∧ WentOn s t) ∧
    (∃ t, exec (.sub rd rn rm) s = .next t ∧
      (readX t rd).toNat = ((readX s rn).toNat + 2 ^ 64 - (readX s rm).toNat) % 2 ^ 64 ∧
      OtherRegsKept s t rd ∧ FlagsKept s t ∧ MemKept s t ∧ WentOn s t))

/-- 45_extended R191, R192, R193: `AND`, `ORR` and `EOR`, bit by bit. -/
def Obligations.BitwiseLogic : Prop :=
  (∀ rd rn rm : RegIdx,
    (encode (.and rd rn rm)).toNat = 0x8A000000 + rm.toNat * 2 ^ 16 + rn.toNat * 2 ^ 5 + rd.toNat ∧
    (encode (.orr rd rn rm)).toNat = 0x8A000400 + rm.toNat * 2 ^ 16 + rn.toNat * 2 ^ 5 + rd.toNat ∧
    (encode (.eor rd rn rm)).toNat = 0x8A000800 + rm.toNat * 2 ^ 16 + rn.toNat * 2 ^ 5 + rd.toNat) ∧
  (∀ (c : Config) (w : Word32), c.enc.WF → getField w 21 11 = c.enc.opcX →
    (getField w 10 6 = c.enc.fnAnd →
      decodeWith c w = .ok (.and (getField w 0 5) (getField w 5 5) (getField w 16 5))) ∧
    (getField w 10 6 = c.enc.fnOrr →
      decodeWith c w = .ok (.orr (getField w 0 5) (getField w 5 5) (getField w 16 5))) ∧
    (getField w 10 6 = c.enc.fnEor →
      decodeWith c w = .ok (.eor (getField w 0 5) (getField w 5 5) (getField w 16 5)))) ∧
  (∀ (s : State) (rd rn rm : RegIdx),
    (∃ t, exec (.and rd rn rm) s = .next t ∧
      (∀ k, (readX t rd).getLsbD k = ((readX s rn).getLsbD k && (readX s rm).getLsbD k)) ∧
      OtherRegsKept s t rd ∧ FlagsKept s t ∧ MemKept s t ∧ WentOn s t) ∧
    (∃ t, exec (.orr rd rn rm) s = .next t ∧
      (∀ k, (readX t rd).getLsbD k = ((readX s rn).getLsbD k || (readX s rm).getLsbD k)) ∧
      OtherRegsKept s t rd ∧ FlagsKept s t ∧ MemKept s t ∧ WentOn s t) ∧
    (∃ t, exec (.eor rd rn rm) s = .next t ∧
      (∀ k, (readX t rd).getLsbD k = ((readX s rn).getLsbD k ^^ (readX s rm).getLsbD k)) ∧
      OtherRegsKept s t rd ∧ FlagsKept s t ∧ MemKept s t ∧ WentOn s t))

/-- 45_extended R194: `MUL` gives the low 64 bits of the product, which are the same for signed and unsigned
operands. -/
def Obligations.MultiplyLow : Prop :=
  (∀ rd rn rm : RegIdx,
    (encode (.mul rd rn rm)).toNat = 0x8A000C00 + rm.toNat * 2 ^ 16 + rn.toNat * 2 ^ 5 + rd.toNat) ∧
  (∀ (c : Config) (w : Word32), c.enc.WF → getField w 21 11 = c.enc.opcX → getField w 10 6 = c.enc.fnMul →
    decodeWith c w = .ok (.mul (getField w 0 5) (getField w 5 5) (getField w 16 5))) ∧
  (∀ (s : State) (rd rn rm : RegIdx), ∃ t, exec (.mul rd rn rm) s = .next t ∧
    (readX t rd).toNat = ((readX s rn).toNat * (readX s rm).toNat) % 2 ^ 64 ∧
    (2 ^ 64 : Int) ∣ (readX s rn).toInt * (readX s rm).toInt - (readX t rd).toInt ∧
    OtherRegsKept s t rd ∧ FlagsKept s t ∧ MemKept s t ∧ WentOn s t)

/-- 45_extended R195, R196: `LSL` and `LSR` by an immediate, zeros coming in (for `LSR` the spec's decision D9). -/
def Obligations.ImmediateShifts : Prop :=
  (∀ (rd rn : RegIdx) (sh : BitVec 5),
    (encode (.lsl rd rn sh)).toNat = 0x8A001000 + sh.toNat * 2 ^ 16 + rn.toNat * 2 ^ 5 + rd.toNat ∧
    (encode (.lsr rd rn sh)).toNat = 0x8A001400 + sh.toNat * 2 ^ 16 + rn.toNat * 2 ^ 5 + rd.toNat) ∧
  (∀ (c : Config) (w : Word32), c.enc.WF → getField w 21 11 = c.enc.opcX →
    (getField w 10 6 = c.enc.fnLsl →
      decodeWith c w = .ok (.lsl (getField w 0 5) (getField w 5 5) (getField w 16 5))) ∧
    (getField w 10 6 = c.enc.fnLsr →
      decodeWith c w = .ok (.lsr (getField w 0 5) (getField w 5 5) (getField w 16 5)))) ∧
  (∀ (s : State) (rd rn : RegIdx) (sh : BitVec 5),
    (∃ t, exec (.lsl rd rn sh) s = .next t ∧
      (readX t rd).toNat = (readX s rn).toNat * 2 ^ sh.toNat % 2 ^ 64 ∧
      OtherRegsKept s t rd ∧ FlagsKept s t ∧ MemKept s t ∧ WentOn s t) ∧
    (∃ t, exec (.lsr rd rn sh) s = .next t ∧
      (readX t rd).toNat = (readX s rn).toNat / 2 ^ sh.toNat ∧
      OtherRegsKept s t rd ∧ FlagsKept s t ∧ MemKept s t ∧ WentOn s t))

/-- 45_extended R190: `CMP` writes both flags from the wrapped difference, and no register. -/
def Obligations.CompareSetsBothFlags : Prop :=
  (∀ rn rm : RegIdx, (encode (.cmp rn rm)).toNat = 0x8A001800 + rm.toNat * 2 ^ 16 + rn.toNat * 2 ^ 5 + 0x1F) ∧
  (∀ (c : Config) (w : Word32), c.enc.WF → getField w 21 11 = c.enc.opcX → getField w 10 6 = c.enc.fnCmp →
    decodeWith c w = .ok (.cmp (getField w 5 5) (getField w 16 5))) ∧
  (∀ (s : State) (rn rm : RegIdx), ∃ t, exec (.cmp rn rm) s = .next t ∧
    (t.z = true ↔ readX s rn = readX s rm) ∧
    (t.n = true ↔ 2 ^ 63 ≤ ((readX s rn).toNat + 2 ^ 64 - (readX s rm).toNat) % 2 ^ 64) ∧
    RegsKept s t ∧ MemKept s t ∧ WentOn s t)

/-- 45_extended R197: `RET` copies a register into `pc`, unchecked, and does nothing else. -/
def Obligations.ReturnJumpsToRegister : Prop :=
  (∀ rn : RegIdx, (encode (.ret rn)).toNat = 0x8A001C00 + rn.toNat * 2 ^ 5) ∧
  (∀ (c : Config) (w : Word32), c.enc.WF → getField w 21 11 = c.enc.opcX → getField w 10 6 = c.enc.fnRet →
    decodeWith c w = .ok (.ret (getField w 5 5))) ∧
  (∀ (s : State) (rn : RegIdx), ∃ t, exec (.ret rn) s = .next t ∧
    t.pc = readX s rn ∧ t.status = .running ∧ RegsKept s t ∧ FlagsKept s t ∧ MemKept s t)

/-- 41_branches R140, R141, R148: `B` and `BL`, target and link from the branch's own address. -/
def Obligations.BranchAndLink : Prop :=
  (∀ off : BitVec 26, (encode (.b off)).toNat = 0x14000000 + off.toNat ∧
    (encode (.bl off)).toNat = 0x94000000 + off.toNat) ∧
  (∀ (c : Config) (w : Word32), c.enc.WF →
    (getField w 26 6 = c.enc.opcB → decodeWith c w = .ok (.b (getField w 0 26))) ∧
    (getField w 26 6 = c.enc.opcBl → decodeWith c w = .ok (.bl (getField w 0 26)))) ∧
  (∀ (s : State) (off : BitVec 26),
    (∃ t, exec (.b off) s = .next t ∧
      t.pc = s.pc + BitVec.ofInt 64 (4 * off.toInt) ∧ t.status = .running ∧
      RegsKept s t ∧ FlagsKept s t ∧ MemKept s t) ∧
    (∃ t, exec (.bl off) s = .next t ∧
      t.pc = s.pc + BitVec.ofInt 64 (4 * off.toInt) ∧ t.status = .running ∧
      readX t 30 = s.pc + 4 ∧ OtherRegsKept s t 30 ∧ FlagsKept s t ∧ MemKept s t))

/-- 41_branches R142, R143: `CBZ` and `CBNZ` test all 64 bits of the register and no flag. -/
def Obligations.CompareAndBranch : Prop :=
  (∀ (rt : RegIdx) (off : BitVec 19),
    (encode (.cbz rt off)).toNat = 0xB4000000 + off.toNat * 2 ^ 5 + rt.toNat ∧
    (encode (.cbnz rt off)).toNat = 0xB5000000 + off.toNat * 2 ^ 5 + rt.toNat) ∧
  (∀ (c : Config) (w : Word32), c.enc.WF →
    (getField w 24 8 = c.enc.opcCbz → decodeWith c w = .ok (.cbz (getField w 0 5) (getField w 5 19))) ∧
    (getField w 24 8 = c.enc.opcCbnz → decodeWith c w = .ok (.cbnz (getField w 0 5) (getField w 5 19)))) ∧
  (∀ (s : State) (rt : RegIdx) (off : BitVec 19),
    (∃ t, exec (.cbz rt off) s = .next t ∧
      (readX s rt = 0 → t.pc = s.pc + BitVec.ofInt 64 (4 * off.toInt)) ∧
      (readX s rt ≠ 0 → t.pc = s.pc + 4) ∧
      t.status = .running ∧ RegsKept s t ∧ FlagsKept s t ∧ MemKept s t) ∧
    (∃ t, exec (.cbnz rt off) s = .next t ∧
      (readX s rt ≠ 0 → t.pc = s.pc + BitVec.ofInt 64 (4 * off.toInt)) ∧
      (readX s rt = 0 → t.pc = s.pc + 4) ∧
      t.status = .running ∧ RegsKept s t ∧ FlagsKept s t ∧ MemKept s t))

/-- 41_branches R144 to R147: `B.EQ`, `B.NE`, `B.LT` and `B.GE` read the flags alone. -/
def Obligations.ConditionalBranches : Prop :=
  (∀ off : BitVec 19,
    (encode (.bEq off)).toNat = 0x54000000 + off.toNat % 2 ^ 15 * 2 ^ 5 + 0x1F ∧
    (encode (.bNe off)).toNat = 0x54100000 + off.toNat % 2 ^ 15 * 2 ^ 5 + 0x1F ∧
    (encode (.bLt off)).toNat = 0x54B00000 + off.toNat % 2 ^ 15 * 2 ^ 5 + 0x1F ∧
    (encode (.bGe off)).toNat = 0x54A00000 + off.toNat % 2 ^ 15 * 2 ^ 5 + 0x1F) ∧
  (∀ (c : Config) (w : Word32) (off : BitVec 19), c.enc.WF → getField w 24 8 = c.enc.opcBcond →
    (c.bcond = .low15 ∧ off.toInt = (getField w 5 15).toInt ∨ c.bcond = .full19 ∧ off = getField w 5 19) →
    (getField w 20 4 = c.enc.ccEq → decodeWith c w = .ok (.bEq off)) ∧
    (getField w 20 4 = c.enc.ccNe → decodeWith c w = .ok (.bNe off)) ∧
    (getField w 20 4 = c.enc.ccLt → decodeWith c w = .ok (.bLt off)) ∧
    (getField w 20 4 = c.enc.ccGe → decodeWith c w = .ok (.bGe off))) ∧
  (∀ (s : State) (off : BitVec 19),
    (∃ t, exec (.bEq off) s = .next t ∧
      t.pc = (if s.z then s.pc + BitVec.ofInt 64 (4 * off.toInt) else s.pc + 4) ∧
      t.status = .running ∧ RegsKept s t ∧ FlagsKept s t ∧ MemKept s t) ∧
    (∃ t, exec (.bNe off) s = .next t ∧
      t.pc = (if s.z then s.pc + 4 else s.pc + BitVec.ofInt 64 (4 * off.toInt)) ∧
      t.status = .running ∧ RegsKept s t ∧ FlagsKept s t ∧ MemKept s t) ∧
    (∃ t, exec (.bLt off) s = .next t ∧
      t.pc = (if s.n then s.pc + BitVec.ofInt 64 (4 * off.toInt) else s.pc + 4) ∧
      t.status = .running ∧ RegsKept s t ∧ FlagsKept s t ∧ MemKept s t) ∧
    (∃ t, exec (.bGe off) s = .next t ∧
      t.pc = (if s.n then s.pc + 4 else s.pc + BitVec.ofInt 64 (4 * off.toInt)) ∧
      t.status = .running ∧ RegsKept s t ∧ FlagsKept s t ∧ MemKept s t))

/-- 43_load_store R170, R172: `LDUR` loads the word at the effective address, zero-extended, or faults. -/
def Obligations.LoadWordResult : Prop :=
  (∀ (rt rn : RegIdx) (off : BitVec 9),
    (encode (.ldur rt rn off)).toNat = 0xF8400000 + off.toNat * 2 ^ 12 + rn.toNat * 2 ^ 5 + rt.toNat) ∧
  (∀ (c : Config) (w : Word32), c.enc.WF → getField w 21 11 = c.enc.opcLdur →
    decodeWith c w = .ok (.ldur (getField w 0 5) (getField w 5 5) (getField w 12 9))) ∧
  (∀ (s : State) (rt rn : RegIdx) (off : BitVec 9) (ea : Word), ea = effectiveAddress s rn off →
    ea = readX s rn + BitVec.ofInt 64 off.toInt ∧
    (Accessible s.mem ea → ∃ t, exec (.ldur rt rn off) s = .next t ∧
      (readX t rt).toNat = (s.mem.word (ea.toNat / 4)).toNat ∧
      OtherRegsKept s t rt ∧ FlagsKept s t ∧ MemKept s t ∧ WentOn s t) ∧
    (ea.toNat % 4 ≠ 0 → exec (.ldur rt rn off) s = .fault (.alignmentError ea)) ∧
    (ea.toNat % 4 = 0 → s.mem.capacity ≤ ea.toNat / 4 → exec (.ldur rt rn off) s = .fault (.outOfBounds ea)))

/-- 43_load_store R171, R172: `STUR` stores the low 32 bits of a register in the word at the effective address, or
faults and stores nothing. -/
def Obligations.StoreWordResult : Prop :=
  (∀ (rt rn : RegIdx) (off : BitVec 9),
    (encode (.stur rt rn off)).toNat = 0xF8000000 + off.toNat * 2 ^ 12 + rn.toNat * 2 ^ 5 + rt.toNat) ∧
  (∀ (c : Config) (w : Word32), c.enc.WF → getField w 21 11 = c.enc.opcStur →
    decodeWith c w = .ok (.stur (getField w 0 5) (getField w 5 5) (getField w 12 9))) ∧
  (∀ (s : State) (rt rn : RegIdx) (off : BitVec 9) (ea : Word), s.Inv → ea = effectiveAddress s rn off →
    ea = readX s rn + BitVec.ofInt 64 off.toInt ∧
    (Accessible s.mem ea → ∃ t, exec (.stur rt rn off) s = .next t ∧
      (t.mem.word (ea.toNat / 4)).toNat = (readX s rt).toNat % 2 ^ 32 ∧
      MemKeptOutsideWord s t ea.toNat ∧ RegsKept s t ∧ FlagsKept s t ∧ WentOn s t) ∧
    (ea.toNat % 4 ≠ 0 → exec (.stur rt rn off) s = .fault (.alignmentError ea)) ∧
    (ea.toNat % 4 = 0 → s.mem.capacity ≤ ea.toNat / 4 → exec (.stur rt rn off) s = .fault (.outOfBounds ea)))

/-- 40_fetch R124, R125: the sentinels, by their whole words. -/
def Obligations.SentinelsRun : Prop :=
  encode .halt = 0xFFFFFFFF ∧ encode .nop = 0xD503201F ∧
  (∀ c : Config, c.enc.nopWord ≠ haltWord →
    decodeWith c haltWord = .ok .halt ∧ decodeWith c c.enc.nopWord = .ok .nop) ∧
  (∀ s : State,
    (∃ t, exec .halt s = .next t ∧ t.status = .halted ∧ t.pc = s.pc ∧
      RegsKept s t ∧ FlagsKept s t ∧ t.mem = s.mem) ∧
    (∃ t, exec .nop s = .next t ∧ RegsKept s t ∧ FlagsKept s t ∧ t.mem = s.mem ∧ WentOn s t))

/-! ## The step -/

/-- 40_fetch R121: a step is the fetched word's instruction run by `exec`, with nothing around it; a word that decodes
to `Illegal` faults. -/
def Obligations.StepRunsTheDecodedInstruction : Prop :=
  (∀ (c : Config) (s : State) (i : Instr), Accessible s.mem s.pc →
    decodeWith c (s.mem.word (s.pc.toNat / 4)) = .ok i → cycle c s = exec i s) ∧
  (∀ (c : Config) (s : State) (r : Reject), Accessible s.mem s.pc →
    decodeWith c (s.mem.word (s.pc.toNat / 4)) = .error r →
      cycle c s = .fault (.illegalInstruction (s.mem.word (s.pc.toNat / 4)))) ∧
  (∀ s : State, step s = cycle defaultConfig s)

/-- 60_exceptions R223: exactly when a step faults, and with which fault, in the order of the rule (the spec's decision
D11 within a memory check). -/
def Obligations.StepFaultsExactlyWhen : Prop :=
  ∀ (c : Config) (s : State) (f : Fault), cycle c s = .fault f ↔
    (s.pc.toNat % 4 ≠ 0 ∧ f = .alignmentError s.pc) ∨
    (s.pc.toNat % 4 = 0 ∧ s.mem.capacity ≤ s.pc.toNat / 4 ∧ f = .outOfBounds s.pc) ∨
    (Accessible s.mem s.pc ∧ ∃ w, w = s.mem.word (s.pc.toNat / 4) ∧
      (((∃ r, decodeWith c w = .error r) ∧ f = .illegalInstruction w) ∨
       (∃ rt rn off ea, (decodeWith c w = .ok (.ldur rt rn off) ∨ decodeWith c w = .ok (.stur rt rn off)) ∧
         ea = effectiveAddress s rn off ∧
         ((ea.toNat % 4 ≠ 0 ∧ f = .alignmentError ea) ∨
          (ea.toNat % 4 = 0 ∧ s.mem.capacity ≤ ea.toNat / 4 ∧ f = .outOfBounds ea)))))

/-- No step is refused: every word is an instruction with a meaning, or faults (30_encoding R84, R89). -/
def Obligations.NoStepIsRefused : Prop := ∀ (c : Config) (s : State) (r : Refusal), cycle c s ≠ .refused r

/-- 40_fetch R128, R129, 60_exceptions R224 (the spec's decision D10): a host's step that faults leaves the whole state
as it was, and stepping again gives the same fault. -/
def Obligations.FaultsArePrecise : Prop :=
  ∀ (c : Config) (s t : State) (f : Fault), hostMay c .step s (.fault f) t →
    t = s ∧ ∀ r u, hostMay c .step t r u → r = .fault f ∧ u = s

/-- 10_state R33, 60_exceptions R236: `step` returns false, and the status is Halted, exactly when `HALT` was
fetched; otherwise it returns true and the status is Running. -/
def Obligations.StatusTellsWhetherHaltWasFetched : Prop :=
  ∀ (c : Config) (s t : State) (b : Bool), hostMay c .step s (.stepped b) t →
    ((fetch s = .ok haltWord → b = false ∧ t.status = .halted) ∧
     (fetch s ≠ .ok haltWord → b = true ∧ t.status = .running))

/-- 10_state R33, R34 (the spec's decision D14): the status never prevents a step and never changes what one does. -/
def Obligations.StatusNeverGatesAStep : Prop :=
  ∀ (c : Config) (s : State) (st : Status), cycle c { s with status := st } = cycle c s

/-- 10_state R34 (the spec's decision D14), 70_reset R262, which the spec derives from it: stepping a halted machine at its
`HALT` again changes nothing. -/
def Obligations.HaltRepeats : Prop :=
  ∀ (c : Config) (s t : State), fetch s = .ok haltWord → cycle c s = .next t →
    t.pc = s.pc ∧ t.status = .halted ∧ RegsKept s t ∧ FlagsKept s t ∧ t.mem = s.mem ∧ cycle c t = .next t

/-! ## Whole-machine frames -/

/-- 10_state R31: no instruction but `CMP` writes a flag. -/
def Obligations.OnlyCompareWritesFlags : Prop :=
  ∀ (i : Instr) (s t : State), exec i s = .next t → (∀ rn rm, i ≠ .cmp rn rm) → FlagsKept s t

/-- 10_state R25, which the spec derives from the instructions' rules: an instruction writes no register but its
destination (`Rd`, `LDUR`'s `Rt`, `BL`'s `X30`), and what it does (its fault, `pc`, status, memory, the value of its
destination, `CMP`'s flags) depends on no register but its sources, and on the flags only if it is a conditional
branch. -/
def Obligations.RegistersReadAndWritten : Prop :=
  (∀ (i : Instr) (s t : State), exec i s = .next t → ∀ r, destinationOf i ≠ some r → readX t r = readX s r) ∧
  (∀ (i : Instr) (s s' t : State), s'.pc = s.pc → s'.mem = s.mem →
    (readsFlags i = true → FlagsKept s s') → (∀ r ∈ sourcesOf i, readX s' r = readX s r) →
      (∀ f, exec i s = .fault f → exec i s' = .fault f) ∧
      (exec i s = .next t → ∃ t', exec i s' = .next t' ∧ t'.pc = t.pc ∧ t'.status = t.status ∧ t'.mem = t.mem ∧
        (∀ r, destinationOf i = some r → readX t' r = readX t r) ∧ (∀ rn rm, i = .cmp rn rm → FlagsKept t t')))

/-- 20_memory R45, R47: only `STUR` changes memory, and it changes the four bytes at its effective address alone. -/
def Obligations.OnlyStoreWritesMemory : Prop :=
  ∀ (i : Instr) (s t : State), s.Inv → exec i s = .next t →
    ((∀ rt rn off, i ≠ .stur rt rn off) → t.mem = s.mem) ∧
    (∀ rt rn off, i = .stur rt rn off → MemKeptOutsideWord s t (effectiveAddress s rn off).toNat)

/-- 10_state R27, R28, 41_branches R149: from an aligned `pc`, every instruction but `RET` goes to an aligned `pc`,
and every instruction but a branch, `RET` and `HALT` to `pc + 4`. -/
def Obligations.ProgramCounterAdvance : Prop :=
  ∀ (i : Instr) (s t : State), exec i s = .next t →
    ((∀ rn, i ≠ .ret rn) → s.pc.toNat % 4 = 0 → t.pc.toNat % 4 = 0) ∧
    (i.variant ≠ .branch → i.variant ≠ .condBranch → i.variant ≠ .compareBranch → (∀ rn, i ≠ .ret rn) → i ≠ .halt →
      t.pc = s.pc + 4)

/-- The machine's invariant, memory in canonical form inside its capacity, is kept by every step, for every
configuration and from every state that has it; the capacity never changes (20_memory R40). -/
def Obligations.EveryStepKeepsTheInvariant : Prop :=
  ∀ (c : Config) (s t : State), s.Inv → cycle c s = .next t → t.Inv ∧ t.mem.capacity = s.mem.capacity

/-- A newly created machine of any positive capacity has the invariant, and so has the reset state. -/
def Obligations.ResetHasTheInvariant : Prop :=
  (∀ c : Config, c.WF → (State.created c).Inv) ∧ State.reset.Inv

/-! ## Instructions together -/

/-- 95_test_vectors S3, 20_memory R54: a load from the address just stored to gives the low 32 bits stored,
zero-extended. -/
def Obligations.StoreThenLoad : Prop :=
  ∀ (s t u : State) (rt rn rd rb : RegIdx) (off off' : BitVec 9), s.Inv →
    exec (.stur rt rn off) s = .next t → effectiveAddress t rb off' = effectiveAddress s rn off →
    exec (.ldur rd rb off') t = .next u → (readX u rd).toNat = (readX s rt).toNat % 2 ^ 32

/-- 20_memory R57, 70_reset R258: a store is seen by the next fetch of that word. -/
def Obligations.FetchSeesEarlierStores : Prop :=
  ∀ (s t u : State) (rt rn : RegIdx) (off : BitVec 9), s.Inv → exec (.stur rt rn off) s = .next t →
    u.mem = t.mem → u.pc = effectiveAddress s rn off → fetch u = .ok ((readX s rt).setWidth 32)

/-- 41_branches R146, R147: after `CMP`, `B.LT` is taken exactly when the wrapped difference is negative as a signed
number, `B.GE` exactly otherwise; this is the signed order exactly when the subtraction does not overflow. -/
def Obligations.LessThanAfterCompare : Prop :=
  ∀ (s t : State) (rn rm : RegIdx) (off : BitVec 19), exec (.cmp rn rm) s = .next t →
    (∃ u, exec (.bLt off) t = .next u ∧
      u.pc = (if (readX s rn - readX s rm).toInt < 0 then t.pc + BitVec.ofInt 64 (4 * off.toInt) else t.pc + 4)) ∧
    (∃ u, exec (.bGe off) t = .next u ∧
      u.pc = (if (readX s rn - readX s rm).toInt < 0 then t.pc + 4 else t.pc + BitVec.ofInt 64 (4 * off.toInt))) ∧
    ((t.n = true ↔ (readX s rn).toInt < (readX s rm).toInt) ↔
      FitsSigned 64 ((readX s rn).toInt - (readX s rm).toInt))

/-- 41_branches R151: a subroutine entered by `BL` that leaves `X30` alone returns to the instruction after the `BL`
by `RET X30`. -/
def Obligations.CallThenReturn : Prop :=
  ∀ (s t u : State) (off : BitVec 26), exec (.bl off) s = .next t → readX u 30 = readX t 30 →
    ∃ v, exec (.ret 30) u = .next v ∧ v.pc = s.pc + 4

/-! ## The host's image and run loop -/

/-- 20_memory R60, R61 (the spec's decision D16): `loadProgram` fills memory from word 0 with the lines' words and zeroes,
or raises `CapacityExceeded`, after which memory may hold any value. The CPU is as it was either way: 70_reset R251, and
after the fault the model's reading of it, log entry 5. -/
def Obligations.LoadProgramFillsMemory : Prop :=
  ∀ (c : Config) (s t : State) (r : HostReply) (lines : List Text) (words : List Word32), s.Inv →
    words = lines.filterMap parseImageLine →
    (words.length ≤ s.mem.capacity →
      (∃ r' t', hostMay c (.loadProgram lines) s r' t') ∧
      (hostMay c (.loadProgram lines) s r t → r = .done ∧ CpuKept s t ∧ t.mem.capacity = s.mem.capacity ∧
        ∀ i, t.mem.word i = words.getD i 0)) ∧
    (s.mem.capacity < words.length →
      (hostMay c (.loadProgram lines) s r t → r = .fault .capacityExceeded ∧ CpuKept s t) ∧
      (∀ m : Memory, m.WF → m.capacity = s.mem.capacity →
        hostMay c (.loadProgram lines) s (.fault .capacityExceeded) (setMem s m)))

/-- 20_memory R62, R63: a dump has one line for each word asked for, `maxWords` clamped to the capacity (the spec's decision
D22), and loading a whole dump gives the memory back. -/
def Obligations.DumpThenLoad : Prop :=
  (∀ (m : Memory) (maxWords i : Nat),
    (dumpImage m (some maxWords))[i]? = if i < maxWords ∧ i < m.capacity then some (dumpLine (m.word i)) else none) ∧
  (∀ (m : Memory) (i : Nat), (dumpImage m none)[i]? = if i < m.capacity then some (dumpLine (m.word i)) else none) ∧
  (∀ m : Memory, m.WF → loadImage m.capacity (dumpImage m none) = .ok m)

/-- Every host action keeps the machine's invariant and the capacity (20_memory R40), the run loop and a failed load
(R61) among them (60_exceptions R242). That a failed load keeps the capacity and leaves a well-formed memory is the
model's reading: log entry 5. -/
def Obligations.EveryHostActionKeepsTheInvariant : Prop :=
  ∀ (c : Config) (a : HostAction) (s t : State) (r : HostReply), s.Inv → hostMay c a s r t →
    t.Inv ∧ t.mem.capacity = s.mem.capacity

/-- 60_exceptions R243, 70_reset R261 (the spec's decision D28 counts the steps and names the final state): the run loop
takes Running steps until one fetches `HALT`, one faults, or the cap is met. A halted run took all its counted steps
but the last as Running ones, and the last, at `HALT`, left the final state, which further steps keep; a faulted run
took all but the last, and the last faulted in the final state; a capped run took exactly the cap's steps, all Running.
No run is refused, and the host's `run` answers the loop's verdict, count and final state. -/
def Obligations.RunLoopVerdicts : Prop :=
  (∀ (c : Config) (cap : Nat) (s : State) (v : RunResult), v = runLoop c cap s →
    v.steps ≤ cap ∧
    (v.verdict = .halted → ∃ k u, v.steps = k + 1 ∧ RunsFor c k s u ∧ fetch u = .ok haltWord ∧
      cycle c u = .next v.final ∧ v.final = setHalted u ∧ cycle c v.final = .next v.final) ∧
    (∀ f, v.verdict = .faulted f → ∃ k, v.steps = k + 1 ∧ RunsFor c k s v.final ∧ cycle c v.final = .fault f) ∧
    (v.verdict = .capReached → v.steps = cap ∧ RunsFor c cap s v.final) ∧
    (∀ r, v.verdict ≠ .refused r)) ∧
  (∀ (c : Config) (s t : State) (r : HostReply), hostMay c .run s r t ↔
    r = .ended (runLoop c c.runCap s).verdict (runLoop c c.runCap s).steps ∧ t = (runLoop c c.runCap s).final)

/-! ## The toolchain -/

/-- 30_encoding R117: in every style, rendering a well-formed instruction and assembling the text gives the encoder's
word. -/
def Obligations.AssembleOfRender : Prop :=
  ∀ (st : Style) (c : Config) (i : Instr), i.WF c = true →
    assemble c (renderInstr st i) = .ok (some (encodeWith c.enc i))

/-- 30_encoding R117: whatever line assembles to a word, disassembling that word in any style and assembling the text
again gives the same word. -/
def Obligations.AssembleDisassembleAssemble : Prop :=
  ∀ (st : Style) (c : Config) (line : Text) (w : Word32), c.enc.WF → assemble c line = .ok (some w) →
    assemble c (disassemble st c w) = .ok (some w)

/-- 30_encoding R105, R106, R107: the range of every immediate, and which error an immediate out of it gives. -/
def Obligations.AssemblerRanges : Prop :=
  ∀ (st : Style) (c : Config) (v : Int) (r1 r2 : RegIdx),
    (assembleOperands c (.branch .b) [renderImm st v] =
      if -(2 ^ 25) ≤ v ∧ v < 2 ^ 25 then .ok (.b (BitVec.ofInt 26 v)) else .error .rangeError) ∧
    (assembleOperands c (.compareBranch .cbz) [renderReg st r1, renderImm st v] =
      if -(2 ^ 18) ≤ v ∧ v < 2 ^ 18 then .ok (.cbz r1 (BitVec.ofInt 19 v)) else .error .refused) ∧
    (c.bcond = .low15 → assembleOperands c (.condBranch .bLt) [renderImm st v] =
      if -(2 ^ 14) ≤ v ∧ v < 2 ^ 14 then .ok (.bLt (BitVec.ofInt 19 v)) else .error .refused) ∧
    (assembleOperands c (.immediate .addi) [renderReg st r1, renderReg st r2, renderImm st v] =
      if 0 ≤ v ∧ v ≤ 4095 then .ok (.addi r1 r2 (BitVec.ofInt 12 v)) else .error .rangeError) ∧
    (assembleOperands c (.memory .ldur) [renderReg st r1, '[' :: renderReg st r2, renderImm st v ++ [']']] =
      if -256 ≤ v ∧ v ≤ 255 then .ok (.ldur r1 r2 (BitVec.ofInt 9 v)) else .error .rangeError) ∧
    (assembleOperands c (.shift .lsl) [renderReg st r1, renderReg st r2, renderImm st v] =
      if 0 ≤ v ∧ v ≤ 31 then .ok (.lsl r1 r2 (BitVec.ofInt 5 v))
      else if 32 ≤ v ∧ v ≤ 63 then .error .refused else .error .rangeError)

/-- 30_encoding R100, R108: a line holds no instruction exactly when it is empty without its comment and outer white
space; one that is not and has no token is a `SyntaxError`; one whose first token is no mnemonic is an
`UnknownInstruction`. That a line of commas has no token, and so is malformed input, is the model's reading: log
entry 15. -/
def Obligations.AssemblerLines : Prop :=
  ∀ (c : Config) (line text : Text), text = cutAsmComment line →
    (assemble c line = .ok none ↔ trim text = []) ∧
    (trim text ≠ [] → tokens text = [] → assemble c line = .error .syntaxError) ∧
    (∀ m ops, tokens text = m :: ops → shapeOf (m.map upperChar) = none →
      assemble c line = .error .unknownInstruction)
end

