-- ==== Sys2Proof/Laws/Decode.lean ====
section
/-! SUPPORT. What a well-formed assignment gives the decoder: at most one opcode pattern matches a word
(30_encoding R81, R83). -/

namespace Sys2Proof

/-! ## Fields of a concatenation -/

/-- A field above the last part. -/
theorem getField_append_high {p q : Nat} (a : BitVec p) (b : BitVec q) {lo n : Nat} (h : q ≤ lo) :
    (a ++ b).extractLsb' lo n = a.extractLsb' (lo - q) n := by
  apply BitVec.eq_of_getLsbD_eq
  intro k hk
  have h1 : ¬ lo + k < q := by omega
  have h2 : lo + k - q = lo - q + k := by omega
  simp [BitVec.getLsbD_append, h1, h2]

/-- A field inside the last part. -/
theorem getField_append_low {p q : Nat} (a : BitVec p) (b : BitVec q) {lo n : Nat} (h : lo + n ≤ q) :
    (a ++ b).extractLsb' lo n = b.extractLsb' lo n := by
  apply BitVec.eq_of_getLsbD_eq
  intro k hk
  have h1 : lo + k < q := by omega
  simp [BitVec.getLsbD_append, h1]

/-- A whole part. -/
theorem getField_whole {n : Nat} (a : BitVec n) : a.extractLsb' 0 n = a := by
  apply BitVec.eq_of_getLsbD_eq
  intro k hk
  simp [hk]

/-- A concatenation as a number. -/
theorem toNat_append_add {p q : Nat} (a : BitVec p) (b : BitVec q) : (a ++ b).toNat = a.toNat * 2 ^ q + b.toNat := by
  rw [BitVec.toNat_append, ← Nat.shiftLeft_add_eq_or_of_lt b.isLt, Nat.shiftLeft_eq]

/-! ## Opcode patterns -/

/-- A leading field equals an opcode exactly when the word matches its pattern. -/
theorem matches_iff_getField {n lo : Nat} (h : lo + n = 32) (w : Word32) (b : BitVec n) :
    Pattern.Matches ⟨n, b.toNat⟩ w ↔ getField w lo n = b := by
  have hlo : 32 - n = lo := by omega
  have hlt : w.toNat / 2 ^ lo < 2 ^ n := by
    rw [Nat.div_lt_iff_lt_mul (by positivity), ← Nat.pow_add, Nat.add_comm, h]
    exact w.isLt
  rw [← BitVec.toNat_inj, BitVec.extractLsb'_toNat, Nat.shiftRight_eq_div_pow, Nat.mod_eq_of_lt hlt, Pattern.Matches, hlo]

/-- Two patterns that are apart do not match one word. -/
theorem Pattern.Apart.not_both {p q : Pattern} (h : p.Apart q) (hpq : p.width ≤ q.width) (hq : q.width ≤ 32)
    {w : Word32} (hp : p.Matches w) : ¬ q.Matches w := by
  intro hm
  apply h
  rw [← hm, ← hp, Nat.div_div_eq_div_mul, ← Nat.pow_add]
  congr 2
  omega

/-- Under a well-formed assignment, a word that matches one opcode pattern matches no other. -/
theorem Enc.WF.only_match {e : Enc} (h : e.WF) {w : Word32} {p q : Pattern} (hp : p ∈ e.patterns)
    (hq : q ∈ e.patterns) (hpw : p.Matches w) (hqw : q.Matches w) : p = q := by
  have hs : e.patterns.Pairwise fun p q => p.width ≤ q.width ∧ q.width ≤ 32 := by
    simp [Enc.patterns]
  have hx : e.patterns.Pairwise fun p q => ¬ (p.Matches w ∧ q.Matches w) :=
    (h.1.and hs).imp fun ⟨ha, hw, h32⟩ ⟨hp, hq⟩ => ha.not_both hw h32 hp hq
  by_contra hne
  have hsym : Std.Symm fun p q : Pattern => ¬ (p.Matches w ∧ q.Matches w) := ⟨fun _ _ h' h'' => h' ⟨h''.2, h''.1⟩⟩
  exact hx.forall hp hq hne ⟨hpw, hqw⟩

/-- The opcode patterns of a well-formed assignment are pairwise different at different places. -/
theorem Enc.WF.only_index {e : Enc} (h : e.WF) {w : Word32} {i j : Nat} (hi : i < e.patterns.length)
    (hj : j < e.patterns.length) (hiw : e.patterns[i].Matches w) (hjw : e.patterns[j].Matches w) : i = j := by
  have hs : e.patterns.Pairwise fun p q => p.width ≤ q.width ∧ q.width ≤ 32 := by
    simp [Enc.patterns]
  have hx : e.patterns.Pairwise fun p q => ¬ (p.Matches w ∧ q.Matches w) :=
    (h.1.and hs).imp fun ⟨ha, hw, h32⟩ ⟨hp, hq⟩ => ha.not_both hw h32 hp hq
  rw [List.pairwise_iff_getElem] at hx
  rcases Nat.lt_trichotomy i j with hlt | heq | hgt
  · exact absurd ⟨hiw, hjw⟩ (hx i j hi hj hlt)
  · exact heq
  · exact absurd ⟨hjw, hiw⟩ (hx j i hj hi hgt)

/-- Every test of the decoder on a word that matches the assignment's `j`-th opcode pattern: the sentinels' fail, and
the opcodes' succeed at `j` alone. -/
theorem Enc.WF.tests {e : Enc} (h : e.WF) {w : Word32} {j : Nat} (hj : j < e.patterns.length)
    (hm : e.patterns[j].Matches w) :
    w ≠ haltWord ∧ w ≠ e.nopWord ∧
    (getField w 26 6 = e.opcB ↔ j = 0) ∧
    (getField w 26 6 = e.opcBl ↔ j = 1) ∧
    (getField w 24 8 = e.opcCbz ↔ j = 2) ∧
    (getField w 24 8 = e.opcCbnz ↔ j = 3) ∧
    (getField w 24 8 = e.opcBcond ↔ j = 4) ∧
    (getField w 22 10 = e.opcAddi ↔ j = 5) ∧
    (getField w 22 10 = e.opcSubi ↔ j = 6) ∧
    (getField w 21 11 = e.opcAdd ↔ j = 7) ∧
    (getField w 21 11 = e.opcSub ↔ j = 8) ∧
    (getField w 21 11 = e.opcLdur ↔ j = 9) ∧
    (getField w 21 11 = e.opcStur ↔ j = 10) ∧
    (getField w 21 11 = e.opcX ↔ j = 11) := by
  have key : ∀ k (hk : k < e.patterns.length), e.patterns[k].Matches w ↔ j = k :=
    fun k hk => ⟨fun hmk => h.only_index hj hk hm hmk, fun e => by subst e; exact hm⟩
  have hd := h.2.2.2.2 _ (List.getElem_mem hj)
  refine ⟨fun he => hd.1 (he ▸ hm), fun he => hd.2 (he ▸ hm), ?_, ?_, ?_, ?_, ?_, ?_, ?_, ?_, ?_, ?_, ?_, ?_⟩
  · exact (matches_iff_getField rfl w _).symm.trans (key 0 (by simp [Enc.patterns]))
  · exact (matches_iff_getField rfl w _).symm.trans (key 1 (by simp [Enc.patterns]))
  · exact (matches_iff_getField rfl w _).symm.trans (key 2 (by simp [Enc.patterns]))
  · exact (matches_iff_getField rfl w _).symm.trans (key 3 (by simp [Enc.patterns]))
  · exact (matches_iff_getField rfl w _).symm.trans (key 4 (by simp [Enc.patterns]))
  · exact (matches_iff_getField rfl w _).symm.trans (key 5 (by simp [Enc.patterns]))
  · exact (matches_iff_getField rfl w _).symm.trans (key 6 (by simp [Enc.patterns]))
  · exact (matches_iff_getField rfl w _).symm.trans (key 7 (by simp [Enc.patterns]))
  · exact (matches_iff_getField rfl w _).symm.trans (key 8 (by simp [Enc.patterns]))
  · exact (matches_iff_getField rfl w _).symm.trans (key 9 (by simp [Enc.patterns]))
  · exact (matches_iff_getField rfl w _).symm.trans (key 10 (by simp [Enc.patterns]))
  · exact (matches_iff_getField rfl w _).symm.trans (key 11 (by simp [Enc.patterns]))

/-! ## What a decoded instruction says of its word -/

theorem ite_ok_cases {α : Type} {p : Prop} [Decidable p] {a b r : α} (h : (if p then a else b) = r) :
    (p ∧ a = r) ∨ b = r := by
  by_cases hp : p
  · exact .inl ⟨hp, by rwa [if_pos hp] at h⟩
  · exact .inr (by rwa [if_neg hp] at h)

/-- All the ways a word can decode (30_encoding R84). -/
theorem decodeWith_cases {c : Config} {w : Word32} {i : Instr} (h : decodeWith c w = .ok i) :
    (w = haltWord ∧ i = .halt) ∨
    (w = c.enc.nopWord ∧ i = .nop) ∨
    (getField w 26 6 = c.enc.opcB ∧ i = .b (getField w 0 26)) ∨
    (getField w 26 6 = c.enc.opcBl ∧ i = .bl (getField w 0 26)) ∨
    (getField w 24 8 = c.enc.opcCbz ∧ i = .cbz (getField w 0 5) (getField w 5 19)) ∨
    (getField w 24 8 = c.enc.opcCbnz ∧ i = .cbnz (getField w 0 5) (getField w 5 19)) ∨
    (getField w 24 8 = c.enc.opcBcond ∧ decodeBcond c w = .ok i) ∨
    (getField w 22 10 = c.enc.opcAddi ∧ i = .addi (getField w 0 5) (getField w 5 5) (getField w 10 12)) ∨
    (getField w 22 10 = c.enc.opcSubi ∧ i = .subi (getField w 0 5) (getField w 5 5) (getField w 10 12)) ∨
    (getField w 21 11 = c.enc.opcAdd ∧ i = .add (getField w 0 5) (getField w 5 5) (getField w 16 5)) ∨
    (getField w 21 11 = c.enc.opcSub ∧ i = .sub (getField w 0 5) (getField w 5 5) (getField w 16 5)) ∨
    (getField w 21 11 = c.enc.opcLdur ∧ i = .ldur (getField w 0 5) (getField w 5 5) (getField w 12 9)) ∨
    (getField w 21 11 = c.enc.opcStur ∧ i = .stur (getField w 0 5) (getField w 5 5) (getField w 12 9)) ∨
    (getField w 21 11 = c.enc.opcX ∧ decodeX c.enc w = .ok i) := by
  unfold decodeWith at h
  rcases ite_ok_cases h with ⟨h1, h2⟩ | h
  · exact .inl ⟨h1, (Except.ok.inj h2).symm⟩
  refine .inr ?_
  rcases ite_ok_cases h with ⟨h1, h2⟩ | h
  · exact .inl ⟨h1, (Except.ok.inj h2).symm⟩
  refine .inr ?_
  rcases ite_ok_cases h with ⟨h1, h2⟩ | h
  · exact .inl ⟨h1, (Except.ok.inj h2).symm⟩
  refine .inr ?_
  rcases ite_ok_cases h with ⟨h1, h2⟩ | h
  · exact .inl ⟨h1, (Except.ok.inj h2).symm⟩
  refine .inr ?_
  rcases ite_ok_cases h with ⟨h1, h2⟩ | h
  · exact .inl ⟨h1, (Except.ok.inj h2).symm⟩
  refine .inr ?_
  rcases ite_ok_cases h with ⟨h1, h2⟩ | h
  · exact .inl ⟨h1, (Except.ok.inj h2).symm⟩
  refine .inr ?_
  rcases ite_ok_cases h with ⟨h1, h2⟩ | h
  · exact .inl ⟨h1, h2⟩
  refine .inr ?_
  rcases ite_ok_cases h with ⟨h1, h2⟩ | h
  · exact .inl ⟨h1, (Except.ok.inj h2).symm⟩
  refine .inr ?_
  rcases ite_ok_cases h with ⟨h1, h2⟩ | h
  · exact .inl ⟨h1, (Except.ok.inj h2).symm⟩
  refine .inr ?_
  rcases ite_ok_cases h with ⟨h1, h2⟩ | h
  · exact .inl ⟨h1, (Except.ok.inj h2).symm⟩
  refine .inr ?_
  rcases ite_ok_cases h with ⟨h1, h2⟩ | h
  · exact .inl ⟨h1, (Except.ok.inj h2).symm⟩
  refine .inr ?_
  rcases ite_ok_cases h with ⟨h1, h2⟩ | h
  · exact .inl ⟨h1, (Except.ok.inj h2).symm⟩
  refine .inr ?_
  rcases ite_ok_cases h with ⟨h1, h2⟩ | h
  · exact .inl ⟨h1, (Except.ok.inj h2).symm⟩
  refine .inr ?_
  rcases ite_ok_cases h with ⟨h1, h2⟩ | h
  · exact ⟨h1, h2⟩
  · cases h

/-- All the ways a conditional branch's word can decode (30_encoding R84, R85). -/
theorem decodeBcond_cases {c : Config} {w : Word32} {i : Instr} (h : decodeBcond c w = .ok i) :
    (getField w 20 4 = c.enc.ccEq ∧ i = .bEq (bcondOffset c.bcond w)) ∨
    (getField w 20 4 = c.enc.ccNe ∧ i = .bNe (bcondOffset c.bcond w)) ∨
    (getField w 20 4 = c.enc.ccLt ∧ i = .bLt (bcondOffset c.bcond w)) ∨
    (getField w 20 4 = c.enc.ccGe ∧ i = .bGe (bcondOffset c.bcond w)) := by
  unfold decodeBcond at h
  rcases ite_ok_cases h with ⟨h1, h2⟩ | h
  · exact .inl ⟨h1, (Except.ok.inj h2).symm⟩
  refine .inr ?_
  rcases ite_ok_cases h with ⟨h1, h2⟩ | h
  · exact .inl ⟨h1, (Except.ok.inj h2).symm⟩
  refine .inr ?_
  rcases ite_ok_cases h with ⟨h1, h2⟩ | h
  · exact .inl ⟨h1, (Except.ok.inj h2).symm⟩
  refine .inr ?_
  rcases ite_ok_cases h with ⟨h1, h2⟩ | h
  · exact ⟨h1, (Except.ok.inj h2).symm⟩
  · cases h

/-- All the ways an X-extended word can decode (30_encoding R84, R85). -/
theorem decodeX_cases {e : Enc} {w : Word32} {i : Instr} (h : decodeX e w = .ok i) :
    (getField w 10 6 = e.fnAnd ∧ i = .and (getField w 0 5) (getField w 5 5) (getField w 16 5)) ∨
    (getField w 10 6 = e.fnOrr ∧ i = .orr (getField w 0 5) (getField w 5 5) (getField w 16 5)) ∨
    (getField w 10 6 = e.fnEor ∧ i = .eor (getField w 0 5) (getField w 5 5) (getField w 16 5)) ∨
    (getField w 10 6 = e.fnMul ∧ i = .mul (getField w 0 5) (getField w 5 5) (getField w 16 5)) ∨
    (getField w 10 6 = e.fnLsl ∧ i = .lsl (getField w 0 5) (getField w 5 5) (getField w 16 5)) ∨
    (getField w 10 6 = e.fnLsr ∧ i = .lsr (getField w 0 5) (getField w 5 5) (getField w 16 5)) ∨
    (getField w 10 6 = e.fnCmp ∧ i = .cmp (getField w 5 5) (getField w 16 5)) ∨
    (getField w 10 6 = e.fnRet ∧ i = .ret (getField w 5 5)) := by
  unfold decodeX at h
  rcases ite_ok_cases h with ⟨h1, h2⟩ | h
  · exact .inl ⟨h1, (Except.ok.inj h2).symm⟩
  refine .inr ?_
  rcases ite_ok_cases h with ⟨h1, h2⟩ | h
  · exact .inl ⟨h1, (Except.ok.inj h2).symm⟩
  refine .inr ?_
  rcases ite_ok_cases h with ⟨h1, h2⟩ | h
  · exact .inl ⟨h1, (Except.ok.inj h2).symm⟩
  refine .inr ?_
  rcases ite_ok_cases h with ⟨h1, h2⟩ | h
  · exact .inl ⟨h1, (Except.ok.inj h2).symm⟩
  refine .inr ?_
  rcases ite_ok_cases h with ⟨h1, h2⟩ | h
  · exact .inl ⟨h1, (Except.ok.inj h2).symm⟩
  refine .inr ?_
  rcases ite_ok_cases h with ⟨h1, h2⟩ | h
  · exact .inl ⟨h1, (Except.ok.inj h2).symm⟩
  refine .inr ?_
  rcases ite_ok_cases h with ⟨h1, h2⟩ | h
  · exact .inl ⟨h1, (Except.ok.inj h2).symm⟩
  refine .inr ?_
  rcases ite_ok_cases h with ⟨h1, h2⟩ | h
  · exact ⟨h1, (Except.ok.inj h2).symm⟩
  · cases h

end Sys2Proof
end

