-- ==== Sys2Proof/Laws/State.lean ====
section
/-! SUPPORT. One lemma per field per update of the state, so that no proof unfolds a record update. -/

namespace Sys2Proof.Machine

/-! ## `writeX` -/

@[simp] theorem writeX_pc (s : State) (r : RegIdx) (v : Word) : (writeX s r v).pc = s.pc := rfl
@[simp] theorem writeX_z (s : State) (r : RegIdx) (v : Word) : (writeX s r v).z = s.z := rfl
@[simp] theorem writeX_n (s : State) (r : RegIdx) (v : Word) : (writeX s r v).n = s.n := rfl
@[simp] theorem writeX_status (s : State) (r : RegIdx) (v : Word) : (writeX s r v).status = s.status := rfl
@[simp] theorem writeX_mem (s : State) (r : RegIdx) (v : Word) : (writeX s r v).mem = s.mem := rfl

theorem readX_writeX (s : State) (r q : RegIdx) (v : Word) :
    readX (writeX s r v) q = if q = r then v else readX s q := by
  simp only [readX, writeX, Vector.getElem_set]
  by_cases h : q = r
  · simp [h]
  · have : r.toNat ≠ q.toNat := fun e => h (BitVec.eq_of_toNat_eq e.symm)
    simp [h, this]

@[simp] theorem readX_writeX_same (s : State) (r : RegIdx) (v : Word) : readX (writeX s r v) r = v := by
  simp [readX_writeX]

@[simp] theorem readX_writeX_other (s : State) {r q : RegIdx} (v : Word) (h : q ≠ r) :
    readX (writeX s r v) q = readX s q := by
  simp [readX_writeX, h]

/-- Two register files that read alike are the same data. -/
theorem x_ext {s t : State} (h : ∀ r, readX s r = readX t r) : s.x = t.x := by
  apply Vector.ext
  intro i hi
  simpa [readX, Nat.mod_eq_of_lt hi] using h (BitVec.ofNat 5 i)

/-! ## `setMem` -/

@[simp] theorem setMem_pc (s : State) (m : Memory) : (setMem s m).pc = s.pc := rfl
@[simp] theorem setMem_z (s : State) (m : Memory) : (setMem s m).z = s.z := rfl
@[simp] theorem setMem_n (s : State) (m : Memory) : (setMem s m).n = s.n := rfl
@[simp] theorem setMem_status (s : State) (m : Memory) : (setMem s m).status = s.status := rfl
@[simp] theorem setMem_mem (s : State) (m : Memory) : (setMem s m).mem = m := rfl
@[simp] theorem readX_setMem (s : State) (m : Memory) (r : RegIdx) : readX (setMem s m) r = readX s r := rfl

/-! ## `advanceTo` -/

@[simp] theorem advanceTo_pc (s : State) (p : Word) : (advanceTo s p).pc = p := rfl
@[simp] theorem advanceTo_z (s : State) (p : Word) : (advanceTo s p).z = s.z := rfl
@[simp] theorem advanceTo_n (s : State) (p : Word) : (advanceTo s p).n = s.n := rfl
@[simp] theorem advanceTo_status (s : State) (p : Word) : (advanceTo s p).status = .running := rfl
@[simp] theorem advanceTo_mem (s : State) (p : Word) : (advanceTo s p).mem = s.mem := rfl
@[simp] theorem readX_advanceTo (s : State) (p : Word) (r : RegIdx) : readX (advanceTo s p) r = readX s r := rfl

/-! ## `setHalted` -/

@[simp] theorem setHalted_pc (s : State) : (setHalted s).pc = s.pc := rfl
@[simp] theorem setHalted_z (s : State) : (setHalted s).z = s.z := rfl
@[simp] theorem setHalted_n (s : State) : (setHalted s).n = s.n := rfl
@[simp] theorem setHalted_status (s : State) : (setHalted s).status = .halted := rfl
@[simp] theorem setHalted_mem (s : State) : (setHalted s).mem = s.mem := rfl
@[simp] theorem readX_setHalted (s : State) (r : RegIdx) : readX (setHalted s) r = readX s r := rfl

/-! ## `setFlags` -/

@[simp] theorem setFlags_pc (s : State) (a b : Word) : (setFlags s a b).pc = s.pc := rfl
@[simp] theorem setFlags_z (s : State) (a b : Word) : (setFlags s a b).z = compareZ a b := rfl
@[simp] theorem setFlags_n (s : State) (a b : Word) : (setFlags s a b).n = compareN a b := rfl
@[simp] theorem setFlags_status (s : State) (a b : Word) : (setFlags s a b).status = s.status := rfl
@[simp] theorem setFlags_mem (s : State) (a b : Word) : (setFlags s a b).mem = s.mem := rfl
@[simp] theorem readX_setFlags (s : State) (a b : Word) (r : RegIdx) : readX (setFlags s a b) r = readX s r := rfl

/-! ## Ending a step -/

theorem nextPc_eq (s : State) : nextPc s = s.pc + 4 := rfl

/-- All that going on at an address can answer. -/
theorem continueAt_eq_next {s t : State} {p : Word} : continueAt s p = .next t ↔ t = advanceTo s p := by
  simp [continueAt, eq_comm]

/-- All that going on to the next instruction can answer. -/
theorem continueNext_eq_next {s t : State} : continueNext s = .next t ↔ t = advanceTo s (s.pc + 4) :=
  continueAt_eq_next

/-- All that writing one register and going on can answer. -/
theorem writeAndContinue_eq_next {s t : State} {r : RegIdx} {v : Word} :
    writeAndContinue s r v = .next t ↔ t = advanceTo (writeX s r v) (s.pc + 4) :=
  continueNext_eq_next

/-- All that a conditional branch can answer. -/
theorem branchIf_eq_next {n : Nat} {s t : State} {cond : Bool} {off : BitVec n} :
    branchIf s cond off = .next t ↔
      t = advanceTo s (if cond then s.pc + (off.signExtend 64 <<< 2) else s.pc + 4) :=
  continueAt_eq_next

/-- Raising a fault answers no next state. -/
@[simp] theorem raise_ne_next (f : Fault) (t : State) : raise f ≠ .next t := by simp [raise]

end Sys2Proof.Machine
end

