-- ==== Sys2Proof/Laws/Memory.lean ====
section
/-! SUPPORT. The laws of memory: reads after writes, the canonical form, words made of bytes, and what an access can
answer. -/

namespace Sys2Proof.Machine

/-! ## Reading after writing, byte by byte -/

theorem readCells_consCell (a : Nat) (v : Byte) (rest : List Host.Cell) (b : Nat)
    (h : ∀ p ∈ rest, a < p.1) :
    readCells (consCell a v rest) b = if b = a then v else readCells rest b := by
  have hz : ∀ l : List Host.Cell, (∀ p ∈ l, a < p.1) → readCells l a = unlistedByte := by
    intro l hl
    induction l with
    | nil => rfl
    | cons p l ih =>
      have h1 := hl p (by simp)
      have h2 : p.1 ≠ a := by omega
      have h3 := ih fun q hq => hl q (by simp [hq])
      obtain ⟨k, w⟩ := p
      simp only [readCells]
      simp_all
  unfold consCell
  split
  · split
    · subst_vars; exact hz rest h
    · rfl
  · simp [readCells, eq_comm]

theorem readCells_writeCells (l : List Host.Cell) (hl : l.Pairwise (fun p q => p.1 < q.1)) (a : Nat) (v : Byte)
    (b : Nat) : readCells (writeCells l a v) b = if b = a then v else readCells l b := by
  induction l with
  | nil => exact readCells_consCell a v [] b (by simp)
  | cons p l ih =>
    obtain ⟨k, w⟩ := p
    rw [List.pairwise_cons] at hl
    simp only [writeCells]
    split
    · rename_i hak
      refine readCells_consCell a v _ b ?_
      intro q hq
      rcases List.mem_cons.mp hq with rfl | hq
      · exact hak
      · exact Nat.lt_trans hak (hl.1 q hq)
    · split
      · subst_vars
        rw [readCells_consCell _ v l b fun q hq => hl.1 q hq]
        by_cases hb : b = k
        · simp [hb]
        · simp [readCells, hb, Ne.symm hb]
      · simp only [readCells, ih hl.2]
        by_cases hb : b = a
        · have hk : k ≠ a := fun e => ‹¬a = k› e.symm
          simp [hb, hk]
        · simp [hb]

/-- Writing one byte keeps the canonical form, and lists no address but the old ones and the written one. -/
theorem writeCells_wf {l : List Host.Cell} (h : CellsWF l) (a : Nat) (v : Byte) :
    CellsWF (writeCells l a v) ∧ ∀ p ∈ writeCells l a v, p.1 = a ∨ p ∈ l := by
  induction l with
  | nil =>
    simp only [writeCells, consCell]
    split <;> simp_all [CellsWF]
  | cons p l ih =>
    obtain ⟨k, w⟩ := p
    obtain ⟨hp, hz⟩ := h
    rw [List.pairwise_cons] at hp
    have ihl := ih ⟨hp.2, fun q hq => hz q (by simp [hq])⟩
    simp only [writeCells, consCell]
    split
    · rename_i hak
      split
      · exact ⟨⟨List.pairwise_cons.mpr hp, hz⟩, fun q hq => .inr hq⟩
      · refine ⟨⟨List.pairwise_cons.mpr ⟨?_, List.pairwise_cons.mpr hp⟩, ?_⟩, ?_⟩
        · intro q hq
          rcases List.mem_cons.mp hq with rfl | hq
          · exact hak
          · exact Nat.lt_trans hak (hp.1 q hq)
        · intro q hq
          rcases List.mem_cons.mp hq with rfl | hq
          · assumption
          · exact hz q hq
        · intro q hq
          rcases List.mem_cons.mp hq with rfl | hq
          · exact .inl rfl
          · exact .inr hq
    · split
      · subst_vars
        split
        · exact ⟨⟨hp.2, fun q hq => hz q (by simp [hq])⟩, fun q hq => .inr (by simp [hq])⟩
        · refine ⟨⟨List.pairwise_cons.mpr ⟨fun q hq => hp.1 q hq, hp.2⟩, ?_⟩, ?_⟩
          · intro q hq
            rcases List.mem_cons.mp hq with rfl | hq
            · assumption
            · exact hz q (by simp [hq])
          · intro q hq
            rcases List.mem_cons.mp hq with rfl | hq
            · exact .inl rfl
            · exact .inr (by simp [hq])
      · refine ⟨⟨List.pairwise_cons.mpr ⟨?_, ihl.1.1⟩, ?_⟩, ?_⟩
        · intro q hq
          rcases ihl.2 q hq with h | h
          · omega
          · exact hp.1 q h
        · intro q hq
          rcases List.mem_cons.mp hq with rfl | hq
          · exact hz _ (by simp)
          · exact ihl.1.2 q hq
        · intro q hq
          rcases List.mem_cons.mp hq with rfl | hq
          · exact .inr (by simp)
          · rcases ihl.2 q hq with h | h
            · exact .inl h
            · exact .inr (by simp [h])

/-! ## Canonical contents are equal when they read alike -/

theorem readCells_of_below {l : List Host.Cell} {a : Nat} (h : ∀ p ∈ l, a < p.1) :
    readCells l a = unlistedByte := by
  simpa [consCell] using readCells_consCell a unlistedByte l a h

theorem cells_ext {l l' : List Host.Cell} (h : CellsWF l) (h' : CellsWF l')
    (hr : ∀ a, readCells l a = readCells l' a) : l = l' := by
  induction l generalizing l' with
  | nil =>
    cases l' with
    | nil => rfl
    | cons p l' =>
      have := hr p.1
      simp only [readCells, if_pos] at this
      exact absurd this.symm (h'.2 p (by simp))
  | cons p l ih =>
    cases l' with
    | nil =>
      have := hr p.1
      simp only [readCells, if_pos] at this
      exact absurd this (h.2 p (by simp))
    | cons q l' =>
      obtain ⟨k, v⟩ := p
      obtain ⟨k', v'⟩ := q
      have hp := List.pairwise_cons.mp h.1
      have hp' := List.pairwise_cons.mp h'.1
      have hkk : k = k' := by
        rcases Nat.lt_trichotomy k k' with hlt | heq | hgt
        · have := hr k
          rw [readCells_of_below (l := (k', v') :: l')] at this
          · simp only [readCells, if_pos] at this
            exact absurd this (h.2 (k, v) (by simp))
          · intro q hq
            rcases List.mem_cons.mp hq with rfl | hq
            · exact hlt
            · exact Nat.lt_trans hlt (hp'.1 q hq)
        · exact heq
        · have := hr k'
          rw [readCells_of_below (l := (k, v) :: l)] at this
          · simp only [readCells, if_pos] at this
            exact absurd this.symm (h'.2 (k', v') (by simp))
          · intro q hq
            rcases List.mem_cons.mp hq with rfl | hq
            · exact hgt
            · exact Nat.lt_trans hgt (hp.1 q hq)
      subst hkk
      have hv : v = v' := by simpa [readCells] using hr k
      subst hv
      congr 1
      refine ih ⟨hp.2, fun q hq => h.2 q (by simp [hq])⟩ ⟨hp'.2, fun q hq => h'.2 q (by simp [hq])⟩ ?_
      intro a
      by_cases ha : a = k
      · rw [ha, readCells_of_below fun q hq => hp.1 q hq, readCells_of_below fun q hq => hp'.1 q hq]
      · have := hr a
        simpa [readCells, Ne.symm ha] using this

/-! ## `Memory` -/

@[simp] theorem zeroed_capacity (n : Nat) : (Memory.zeroed n).capacity = n := rfl
@[simp] theorem zeroed_readByte (n a : Nat) : (Memory.zeroed n).readByte a = 0 := rfl
@[simp] theorem writeByte_capacity (m : Memory) (a : Nat) (v : Byte) : (m.writeByte a v).capacity = m.capacity := rfl
@[simp] theorem setWord_capacity (m : Memory) (i : Nat) (v : Word32) : (m.setWord i v).capacity = m.capacity := rfl

theorem zeroed_wf {n : Nat} (h : 0 < n) : (Memory.zeroed n).WF := by simp [Memory.WF, CellsWF, Memory.zeroed, h]

theorem readByte_writeByte {m : Memory} (h : CellsWF m.cells) (a : Nat) (v : Byte) (b : Nat) :
    (m.writeByte a v).readByte b = if b = a then v else m.readByte b :=
  readCells_writeCells m.cells h.1 a v b

theorem writeByte_cells_wf {m : Memory} (h : CellsWF m.cells) (a : Nat) (v : Byte) :
    CellsWF (m.writeByte a v).cells := (writeCells_wf h a v).1

/-- Writing a byte inside the capacity keeps memory well formed. -/
theorem writeByte_wf {m : Memory} (h : m.WF) {a : Nat} (ha : a < 4 * m.capacity) (v : Byte) :
    (m.writeByte a v).WF := by
  refine ⟨h.1, writeByte_cells_wf h.2.1 a v, ?_⟩
  intro p hp
  rcases (writeCells_wf h.2.1 a v).2 p hp with h1 | h1
  · rw [h1]; exact ha
  · exact h.2.2 p h1

/-- Writing a word inside the capacity keeps memory well formed. -/
theorem setWord_wf {m : Memory} (h : m.WF) {i : Nat} (hi : i < m.capacity) (v : Word32) : (m.setWord i v).WF := by
  unfold Memory.setWord
  refine writeByte_wf (writeByte_wf (writeByte_wf (writeByte_wf h ?_ _) ?_ _) ?_ _) ?_ _ <;>
    (try simp only [writeByte_capacity]) <;> omega

/-- The bytes after a word is written: the four of the word, and every other as before. -/
theorem readByte_setWord {m : Memory} (h : CellsWF m.cells) (i : Nat) (v : Word32) (b : Nat) :
    (m.setWord i v).readByte b =
      if b = 4 * i then getField v 0 8
      else if b = 4 * i + 1 then getField v 8 8
      else if b = 4 * i + 2 then getField v 16 8
      else if b = 4 * i + 3 then getField v 24 8
      else m.readByte b := by
  have h1 := writeByte_cells_wf h (4 * i) (getField v 0 8)
  have h2 := writeByte_cells_wf h1 (4 * i + 1) (getField v 8 8)
  have h3 := writeByte_cells_wf h2 (4 * i + 2) (getField v 16 8)
  unfold Memory.setWord
  rw [readByte_writeByte h3, readByte_writeByte h2, readByte_writeByte h1, readByte_writeByte h]
  split_ifs <;> first | rfl | omega

theorem wordOfBytes_of_fields (v : Word32) :
    wordOfBytes (getField v 0 8) (getField v 8 8) (getField v 16 8) (getField v 24 8) = v := by
  apply BitVec.eq_of_getLsbD_eq
  intro k hk
  simp only [wordOfBytes, getField, BitVec.getLsbD_append, BitVec.getLsbD_extractLsb']
  split_ifs with h1 h2 h3
  · simp [h1]
  · have e : 8 + (k - 8) = k := by omega
    simp [e]; omega
  · have e : 16 + (k - 8 - 8) = k := by omega
    simp [e]; omega
  · have e : 24 + (k - 8 - 8 - 8) = k := by omega
    simp [e]; omega

/-- Reading a word after writing one. -/
theorem word_setWord {m : Memory} (h : CellsWF m.cells) (i j : Nat) (v : Word32) :
    (m.setWord i v).word j = if j = i then v else m.word j := by
  unfold Memory.word
  simp only [readByte_setWord h]
  by_cases hij : j = i
  · subst hij
    have e1 : ¬ (4 * j + 1 = 4 * j) := by omega
    simp [wordOfBytes_of_fields]
  · have e : ∀ x y : Nat, x < 4 → y < 4 → 4 * j + x ≠ 4 * i + y := by omega
    have e0 : ∀ y : Nat, y < 4 → 4 * j ≠ 4 * i + y := fun y hy => e 0 y (by omega) hy
    have e1 : ∀ x : Nat, x < 4 → 4 * j + x ≠ 4 * i := fun x hx => e x 0 hx (by omega)
    simp [hij, e, e1]
    simp [e0]

theorem zeroed_word (n i : Nat) : (Memory.zeroed n).word i = 0 := by
  simp only [Memory.word, zeroed_readByte]; decide

/-- The four bytes a word is made of. -/
theorem field_word (m : Memory) (i : Nat) :
    getField (m.word i) 0 8 = m.readByte (4 * i) ∧ getField (m.word i) 8 8 = m.readByte (4 * i + 1) ∧
    getField (m.word i) 16 8 = m.readByte (4 * i + 2) ∧ getField (m.word i) 24 8 = m.readByte (4 * i + 3) := by
  refine ⟨?_, ?_, ?_, ?_⟩ <;>
  · apply BitVec.eq_of_getLsbD_eq
    intro k hk
    simp only [Memory.word, wordOfBytes, getField, BitVec.getLsbD_append, BitVec.getLsbD_extractLsb', hk,
      decide_true, Bool.true_and]
    split_ifs <;> first | omega | (congr 1; omega)

/-- Memories of one capacity whose words read alike are equal. -/
theorem memory_ext {m m' : Memory} (h : m.WF) (h' : m'.WF) (hc : m.capacity = m'.capacity)
    (hw : ∀ i, i < m.capacity → m.word i = m'.word i) : m = m' := by
  have hout : ∀ {n : Memory}, n.WF → ∀ a, 4 * n.capacity ≤ a → n.readByte a = unlistedByte := by
    intro n hn a ha
    have : ∀ l : List Host.Cell, (∀ p ∈ l, p.1 < 4 * n.capacity) → readCells l a = unlistedByte := by
      intro l hl
      induction l with
      | nil => rfl
      | cons p l ih =>
        have h1 := hl p (by simp)
        have h2 : p.1 ≠ a := by omega
        have h3 := ih fun q hq => hl q (by simp [hq])
        obtain ⟨k, w⟩ := p
        simp only [readCells]
        simp_all
    exact this n.cells hn.2.2
  have hcells : m.cells = m'.cells := by
    refine cells_ext h.2.1 h'.2.1 fun a => ?_
    change m.readByte a = m'.readByte a
    by_cases ha : a < 4 * m.capacity
    · have hi : a / 4 < m.capacity := by omega
      have hwd := hw (a / 4) hi
      have f := field_word m (a / 4)
      have f' := field_word m' (a / 4)
      rw [hwd] at f
      have h4 : a = 4 * (a / 4) ∨ a = 4 * (a / 4) + 1 ∨ a = 4 * (a / 4) + 2 ∨ a = 4 * (a / 4) + 3 := by omega
      rcases h4 with e | e | e | e <;> rw [e]
      · rw [← f.1, ← f'.1]
      · rw [← f.2.1, ← f'.2.1]
      · rw [← f.2.2.1, ← f'.2.2.1]
      · rw [← f.2.2.2, ← f'.2.2.2]
    · rw [hout h a (by omega), hout h' a (by omega)]
  cases m; cases m'; simp_all

/-! ## Accesses -/

theorem check_eq_ok {m : Memory} {a : Word} {i : Nat} :
    check m a = .ok i ↔ a.toNat % 4 = 0 ∧ a.toNat / 4 < m.capacity ∧ i = a.toNat / 4 := by
  unfold check
  split_ifs with h1 h2
  · simp [h1]
  · simp; omega
  · simp only [Except.ok.injEq]
    omega

theorem memRead_eq_ok {m : Memory} {a : Word} {v : Word32} :
    memRead m a = .ok v ↔ a.toNat % 4 = 0 ∧ a.toNat / 4 < m.capacity ∧ v = m.word (a.toNat / 4) := by
  unfold memRead
  split
  · rename_i i h
    rw [check_eq_ok] at h
    simp [h.1, h.2.1, h.2.2, eq_comm]
  · rename_i f h
    constructor
    · simp
    · rintro ⟨h1, h2, -⟩
      rw [(check_eq_ok (i := a.toNat / 4)).mpr ⟨h1, h2, rfl⟩] at h
      cases h

theorem memWrite_eq_ok {m m' : Memory} {a : Word} {v : Word32} :
    memWrite m a v = .ok m' ↔
      a.toNat % 4 = 0 ∧ a.toNat / 4 < m.capacity ∧ m' = m.setWord (a.toNat / 4) v := by
  unfold memWrite
  split
  · rename_i i h
    rw [check_eq_ok] at h
    simp [h.1, h.2.1, h.2.2, eq_comm]
  · rename_i f h
    constructor
    · simp
    · rintro ⟨h1, h2, -⟩
      rw [(check_eq_ok (i := a.toNat / 4)).mpr ⟨h1, h2, rfl⟩] at h
      cases h

/-- All the faults an access's check can raise. -/
theorem check_eq_error {m : Memory} {a : Word} {f : Fault} :
    check m a = .error f ↔
      (a.toNat % 4 ≠ 0 ∧ f = .alignmentError a) ∨
      (a.toNat % 4 = 0 ∧ m.capacity ≤ a.toNat / 4 ∧ f = .outOfBounds a) := by
  unfold check
  split_ifs with h1 h2 <;> simp_all [eq_comm]

theorem memRead_eq_error {m : Memory} {a : Word} {f : Fault} :
    memRead m a = .error f ↔ check m a = .error f := by
  unfold memRead; split <;> simp_all

theorem memWrite_eq_error {m : Memory} {a : Word} {v : Word32} {f : Fault} :
    memWrite m a v = .error f ↔ check m a = .error f := by
  unfold memWrite; split <;> simp_all

end Sys2Proof.Machine
end

