-- ==== Sys2Proof/Laws/Text.lean ====
section
/-! SUPPORT. The laws of text: a number, a register, an immediate and an instruction read back as they were written
(30_encoding R100 to R116). -/

namespace Sys2Proof.Machine

/-! ## Digits -/

/-- A digit written is a digit read. -/
theorem digitVal_digitChar {d : Nat} (h : d < 16) : digitVal (digitChar d) = some d := by
  interval_cases d <;> rfl

theorem digitVal_lowerChar_digitChar {d : Nat} (h : d < 16) : digitVal (lowerChar (digitChar d)) = some d := by
  interval_cases d <;> rfl

/-- Reading digits one after the other. -/
theorem parseDigits_append {base : Nat} (t u : Text) (acc : Nat) :
    parseDigits base acc (t ++ u) = (parseDigits base acc t).bind fun a => parseDigits base a u := by
  induction t generalizing acc with
  | nil => rfl
  | cons c t ih =>
    simp only [List.cons_append, parseDigits]
    cases digitVal c with
    | none => rfl
    | some d =>
      simp only []
      split
      · exact ih _
      · rfl

theorem renderDigits_ne_nil (base fuel n : Nat) : renderDigits base fuel n ≠ [] := by
  cases fuel with
  | zero => simp [renderDigits]
  | succ f => simp only [renderDigits]; split <;> simp

/-- Digits read back, through any change of the characters that keeps digits' values. -/
theorem parseDigits_renderDigits {base : Nat} (hb : 2 ≤ base) (hb' : base ≤ 16) (g : Char → Char)
    (hg : ∀ d, d < 16 → digitVal (g (digitChar d)) = some d) (fuel n : Nat) (h : n ≤ fuel) (acc : Nat) :
    ∃ k, parseDigits base acc ((renderDigits base fuel n).map g) = some (acc * base ^ k + n) := by
  induction fuel generalizing n acc with
  | zero =>
    obtain rfl : n = 0 := by omega
    refine ⟨1, ?_⟩
    simp [renderDigits, parseDigits, hg 0 (by omega), show 0 < base by omega, Nat.mul_comm]
  | succ fuel ih =>
    simp only [renderDigits]
    split
    · rename_i hn
      refine ⟨1, ?_⟩
      simp [parseDigits, hg n (by omega), hn, Nat.mul_comm]
    · rename_i hn
      have hlt : n / base < n := Nat.div_lt_self (by omega) (by omega)
      obtain ⟨k, hk⟩ := ih (n / base) (by omega) acc
      refine ⟨k + 1, ?_⟩
      have hm : n % base < base := Nat.mod_lt _ (by omega)
      rw [List.map_append, parseDigits_append, hk]
      simp only [Option.bind_some, List.map_cons, List.map_nil, parseDigits, hg (n % base) (by omega), hm, if_true]
      congr 1
      have := Nat.div_add_mod n base
      rw [Nat.mul_add, Nat.pow_succ]
      calc base * (acc * base ^ k) + base * (n / base) + n % base = acc * (base ^ k * base) + n := by
            rw [Nat.add_assoc, this]; ring
        _ = _ := rfl

/-- A number written is the number read. -/
theorem parseNumber_renderNumber {base : Nat} (hb : 2 ≤ base) (hb' : base ≤ 16) (g : Char → Char)
    (hg : ∀ d, d < 16 → digitVal (g (digitChar d)) = some d) (n : Nat) :
    parseNumber base ((renderNumber base n).map g) = some n := by
  obtain ⟨k, hk⟩ := parseDigits_renderDigits hb hb' g hg n n (le_refl _) 0
  simp [parseNumber, renderNumber, renderDigits_ne_nil] at hk ⊢
  exact hk

theorem parseNumber_case (st : Style) {base : Nat} (hb : 2 ≤ base) (hb' : base ≤ 16) (n : Nat) :
    parseNumber base (st.case (renderNumber base n)) = some n := by
  unfold Style.case
  split
  · exact parseNumber_renderNumber hb hb' lowerChar (fun d => digitVal_lowerChar_digitChar) n
  · simpa using parseNumber_renderNumber hb hb' id (fun d => digitVal_digitChar) n

theorem parseNumber_plain {base : Nat} (hb : 2 ≤ base) (hb' : base ≤ 16) (n : Nat) :
    parseNumber base (renderNumber base n) = some n := by
  simpa using parseNumber_renderNumber hb hb' id (fun d => digitVal_digitChar) n

/-! ## Which characters a rendered number has -/

theorem renderDigits_all {P : Char → Prop} {base : Nat} (hb : 2 ≤ base) (hb' : base ≤ 16) (hP : ∀ d, d < 16 → P (digitChar d))
    (fuel n : Nat) : ∀ c ∈ renderDigits base fuel n, P c := by
  induction fuel generalizing n with
  | zero =>
    have : n % base < base := Nat.mod_lt _ (by omega)
    simpa [renderDigits] using hP (n % base) (by omega)
  | succ fuel ih =>
    simp only [renderDigits]
    split
    · simpa using hP n (by omega)
    · have : n % base < base := Nat.mod_lt _ (by omega)
      intro c hc
      rcases List.mem_append.mp hc with hc | hc
      · exact ih _ c hc
      · rw [List.mem_singleton] at hc; rw [hc]; exact hP (n % base) (by omega)

/-- A number in decimal starts with a decimal digit, and so is neither signed nor hexadecimal. -/
theorem renderNumber_ten (n : Nat) : ∀ c ∈ renderNumber 10 n, ∃ d, d < 10 ∧ c = digitChar d := by
  unfold renderNumber
  suffices ∀ fuel m, ∀ c ∈ renderDigits 10 fuel m, ∃ d, d < 10 ∧ c = digitChar d from this n n
  intro fuel
  induction fuel with
  | zero => intro m; simp only [renderDigits, List.mem_singleton]; rintro c rfl; exact ⟨_, Nat.mod_lt _ (by decide), rfl⟩
  | succ fuel ih =>
    intro m c
    simp only [renderDigits]
    split
    · simp only [List.mem_singleton]; rintro rfl; exact ⟨m, by assumption, rfl⟩
    · intro hc
      rcases List.mem_append.mp hc with hc | hc
      · exact ih _ c hc
      · rw [List.mem_singleton] at hc; exact ⟨_, Nat.mod_lt _ (by decide), hc⟩

theorem parseSigned_ten (n : Nat) : parseSigned (renderNumber 10 n) = some (n : Int) := by
  have h := renderNumber_ten n
  have hp := parseNumber_plain (base := 10) (by decide) (by decide) n
  revert h hp
  generalize renderNumber 10 n = t
  intro h hp
  match t, h, hp with
  | [], h, hp => simp [parseNumber] at hp
  | [c], h, hp =>
    obtain ⟨d, hd, rfl⟩ := h c (by simp)
    interval_cases d <;> simp_all [parseSigned, digitChar]
  | c :: c' :: t, h, hp =>
    obtain ⟨d, hd, rfl⟩ := h c (by simp)
    obtain ⟨d', hd', rfl⟩ := h c' (by simp)
    unfold parseSigned
    split
    · rename_i e; exfalso; have := (List.cons.inj e).1; interval_cases d <;> simp [digitChar] at this
    · rename_i e; exfalso; have := (List.cons.inj (List.cons.inj e).2).1; interval_cases d' <;> simp [digitChar] at this
    · rename_i e; exfalso; have := (List.cons.inj (List.cons.inj e).2).1; interval_cases d' <;> simp [digitChar] at this
    · rw [hp]; rfl

/-- An immediate written is the immediate read. -/
theorem parseImm_renderImm (st : Style) (v : Int) : parseImm (renderImm st v) = .ok v := by
  unfold renderImm
  split
  · simp only [parseImm, parseSigned, parseNumber_plain (base := 10) (by decide) (by decide), Option.map_some]
    congr 1; show -(v.natAbs : Int) = v; omega
  · split
    · simp only [parseImm, parseSigned, parseNumber_case st (base := 16) (by decide) (by decide), Option.map_some]
      congr 1; simp; omega
    · simp only [parseImm, parseSigned_ten]
      congr 1; omega

/-- A register written is the register read. -/
theorem parseReg_renderReg (st : Style) (r : RegIdx) : parseReg (renderReg st r) = .ok r := by
  have hn := parseNumber_case st (base := 10) (by decide) (by decide) r.toNat
  have hr : r.toNat < 32 := r.isLt
  have hu : upperChar (if st.lower then lowerChar 'X' else 'X') = 'X' := by split <;> rfl
  have e : renderReg st r = (if st.lower then lowerChar 'X' else 'X') :: st.case (renderNumber 10 r.toNat) := by
    unfold renderReg Style.case; split <;> rfl
  rw [e, parseReg, if_pos hu, hn]
  simp [hr]

/-! ## Lines -/

theorem splitPieces_ne_nil (t : Text) : splitPieces t ≠ [] := by
  cases t with
  | nil => simp [splitPieces]
  | cons c t => simp only [splitPieces]; split; simp; split <;> simp

/-- A piece with no separator in it, alone and before a separator. -/
theorem splitPieces_word {t : Text} (h : ∀ c ∈ t, isSeparator c = false) : splitPieces t = [t] := by
  induction t with
  | nil => rfl
  | cons c t ih =>
    simp only [splitPieces, h c (by simp), ih fun d hd => h d (by simp [hd])]
    rfl

theorem splitPieces_append {t : Text} (h : ∀ c ∈ t, isSeparator c = false) {s : Char} (hs : isSeparator s = true)
    (u : Text) : splitPieces (t ++ s :: u) = t :: splitPieces u := by
  induction t with
  | nil => simp [splitPieces, hs]
  | cons c t ih =>
    have := ih fun d hd => h d (by simp [hd])
    simp only [List.cons_append, splitPieces, h c (by simp), this]
    rfl

/-- The tokens of one word, and of a word, a separator and the rest. -/
theorem tokens_word {t : Text} (h : ∀ c ∈ t, isSeparator c = false) (hn : t ≠ []) : tokens t = [t] := by
  simp [tokens, splitPieces_word h, hn]

theorem tokens_append {t : Text} (h : ∀ c ∈ t, isSeparator c = false) (hn : t ≠ []) {s : Char}
    (hs : isSeparator s = true) (u : Text) : tokens (t ++ s :: u) = t :: tokens u := by
  simp [tokens, splitPieces_append h hs, hn]

theorem tokens_blank {s : Char} (hs : isSeparator s = true) (u : Text) : tokens (s :: u) = tokens u := by
  simp [tokens, splitPieces, hs]

theorem tokens_blanks (n : Nat) (u : Text) : tokens (List.replicate n ' ' ++ u) = tokens u := by
  induction n with
  | zero => rfl
  | succ n ih => rw [List.replicate_succ, List.cons_append, tokens_blank rfl, ih]

/-- A text of white space alone has no token. -/
theorem tokens_of_blank {t : Text} (h : ∀ c ∈ t, isBlank c = true) : tokens t = [] := by
  induction t with
  | nil => rfl
  | cons c t ih =>
    rw [tokens_blank (by simp [isSeparator, h c (by simp)]), ih fun d hd => h d (by simp [hd])]

/-- A text that trimming empties is white space alone. -/
theorem trim_eq_nil {t : Text} : trim t = [] ↔ ∀ c ∈ t, isBlank c = true := by
  simp only [trim, List.reverse_eq_nil_iff, List.dropWhile_eq_nil_iff, List.mem_reverse]
  constructor
  · intro h
    by_contra hn
    have hne : t.dropWhile isBlank ≠ [] := fun e => hn (List.dropWhile_eq_nil_iff.mp e)
    have hh := List.head_dropWhile_not (p := isBlank) hne
    rw [h _ (List.head_mem hne)] at hh
    exact absurd hh (by decide)
  · intro h c hc
    exact h c ((List.dropWhile_sublist isBlank).subset hc)

/-- A line that has a token is not empty. -/
theorem trim_ne_nil {t m : Text} {rest : List Text} (h : tokens t = m :: rest) : trim t ≠ [] := fun e => by
  rw [tokens_of_blank (trim_eq_nil.mp e)] at h
  cases h

/-- A text with no comment sign in it keeps all its characters. -/
theorem cutAsmComment_plain {t : Text} (h : ∀ c ∈ t, c ≠ ';' ∧ c ≠ '/') : cutAsmComment t = t := by
  induction t with
  | nil => rfl
  | cons c t ih =>
    have := ih fun d hd => h d (by simp [hd])
    have hc := h c (by simp)
    unfold cutAsmComment
    split
    · simp_all
    · simp_all
    · simp_all
    · simp_all

/-- The characters that a rendered operand or mnemonic is made of: no separator and no comment sign. -/
def PlainChar (c : Char) : Prop := isSeparator c = false ∧ c ≠ ';' ∧ c ≠ '/'

/-- A token of plain characters, at least one. -/
def PlainToken (t : Text) : Prop := t ≠ [] ∧ ∀ c ∈ t, PlainChar c

theorem plain_digit {d : Nat} (h : d < 16) : PlainChar (digitChar d) ∧ PlainChar (lowerChar (digitChar d)) := by
  interval_cases d <;> (refine ⟨⟨?_, ?_, ?_⟩, ⟨?_, ?_, ?_⟩⟩ <;> decide)

theorem plain_renderNumber (st : Style) {base : Nat} (hb : 2 ≤ base) (hb' : base ≤ 16) (n : Nat) :
    (∀ c ∈ renderNumber base n, PlainChar c) ∧ ∀ c ∈ st.case (renderNumber base n), PlainChar c := by
  have h1 : ∀ c ∈ renderNumber base n, PlainChar c ∧ PlainChar (lowerChar c) :=
    renderDigits_all (P := fun c => PlainChar c ∧ PlainChar (lowerChar c)) hb hb' (fun d hd => plain_digit hd) n n
  refine ⟨fun c hc => (h1 c hc).1, ?_⟩
  unfold Style.case
  split
  · intro c hc
    obtain ⟨d, hd, rfl⟩ := List.mem_map.mp hc
    exact (h1 d hd).2
  · exact fun c hc => (h1 c hc).1

theorem plain_renderImm (st : Style) (v : Int) : PlainToken (renderImm st v) := by
  have p1 : PlainChar '#' := ⟨by decide, by decide, by decide⟩
  have p2 : PlainChar '-' := ⟨by decide, by decide, by decide⟩
  have p3 : PlainChar '0' := ⟨by decide, by decide, by decide⟩
  have p4 : PlainChar 'x' := ⟨by decide, by decide, by decide⟩
  have h10 := (plain_renderNumber st (base := 10) (by decide) (by decide) v.natAbs).1
  have h16 := (plain_renderNumber st (base := 16) (by decide) (by decide) v.natAbs).2
  unfold renderImm
  split
  · exact ⟨by simp, by simp only [List.mem_cons]; rintro c (rfl | rfl | hc); exacts [p1, p2, h10 c hc]⟩
  · split
    · exact ⟨by simp, by simp only [List.mem_cons]; rintro c (rfl | rfl | rfl | hc); exacts [p1, p3, p4, h16 c hc]⟩
    · exact ⟨by simp, by simp only [List.mem_cons]; rintro c (rfl | hc); exacts [p1, h10 c hc]⟩

theorem plain_renderReg (st : Style) (r : RegIdx) : PlainToken (renderReg st r) := by
  have h10 := (plain_renderNumber st (base := 10) (by decide) (by decide) r.toNat).2
  have hu : PlainChar (if st.lower then lowerChar 'X' else 'X') := by split <;> exact ⟨by decide, by decide, by decide⟩
  have e : renderReg st r = (if st.lower then lowerChar 'X' else 'X') :: st.case (renderNumber 10 r.toNat) := by
    unfold renderReg Style.case; split <;> rfl
  rw [e]
  exact ⟨by simp, by simp only [List.mem_cons]; rintro c (rfl | hc); exacts [hu, h10 c hc]⟩

theorem plain_operandTokens (st : Style) (i : Instr) : ∀ t ∈ operandTokens st i, PlainToken t := by
  have hr := plain_renderReg st
  have hi := plain_renderImm st
  have hb : ∀ r, PlainToken ('[' :: renderReg st r) := by
    intro r
    refine ⟨by simp, ?_⟩
    simp only [List.mem_cons]
    rintro c (rfl | hc)
    · exact ⟨by decide, by decide, by decide⟩
    · exact (hr r).2 c hc
  have ho : ∀ v, PlainToken (renderImm st v ++ [']']) := by
    intro v
    refine ⟨by simp, ?_⟩
    simp only [List.mem_append, List.mem_singleton]
    rintro c (hc | rfl)
    · exact (hi v).2 c hc
    · exact ⟨by decide, by decide, by decide⟩
  cases i <;> simp [operandTokens, hr, hi, hb, ho]

theorem plain_mnemonic (st : Style) (i : Instr) : PlainToken (st.case (mnemonic i)) := by
  have key : ((mnemonic i).all fun c => decide ((isSeparator c = false ∧ c ≠ ';' ∧ c ≠ '/') ∧
      isSeparator (lowerChar c) = false ∧ lowerChar c ≠ ';' ∧ lowerChar c ≠ '/')) = true := by
    cases i <;> rfl
  have hn : mnemonic i ≠ [] := by cases i <;> (intro h; cases h)
  simp only [List.all_eq_true, decide_eq_true_eq] at key
  unfold Style.case
  split
  · refine ⟨by simpa using hn, ?_⟩
    intro c hc
    obtain ⟨d, hd, rfl⟩ := List.mem_map.mp hc
    exact (key d hd).2
  · exact ⟨hn, fun c hc => (key c hc).1⟩

theorem plain_joinTokens (st : Style) {l : List Text} (h : ∀ t ∈ l, PlainToken t) :
    tokens (joinTokens st l) = l ∧ ∀ c ∈ joinTokens st l, c ≠ ';' ∧ c ≠ '/' := by
  induction l with
  | nil => exact ⟨rfl, by simp [joinTokens]⟩
  | cons t l ih =>
    have ht := h t (by simp)
    have ih := ih fun u hu => h u (by simp [hu])
    cases l with
    | nil => exact ⟨tokens_word (fun c hc => (ht.2 c hc).1) ht.1, fun c hc => (ht.2 c hc).2⟩
    | cons u l =>
      simp only [joinTokens]
      constructor
      · rw [List.append_assoc, List.cons_append, tokens_append (fun c hc => (ht.2 c hc).1) ht.1 rfl, tokens_blanks, ih.1]
      · intro c hc
        simp only [List.mem_append, List.mem_cons, List.mem_replicate] at hc
        rcases hc with (hc | rfl | ⟨_, rfl⟩) | hc
        · exact (ht.2 c hc).2
        · decide
        · decide
        · exact ih.2 c hc

/-- A rendered instruction's tokens are its mnemonic and its operands. -/
theorem tokens_renderInstr (st : Style) (i : Instr) :
    tokens (cutAsmComment (renderInstr st i)) = st.case (mnemonic i) :: operandTokens st i := by
  have hm := plain_mnemonic st i
  have ho := plain_joinTokens st (plain_operandTokens st i)
  unfold renderInstr
  split
  · rename_i e
    rw [cutAsmComment_plain fun c hc => (hm.2 c hc).2, tokens_word (fun c hc => (hm.2 c hc).1) hm.1, e]
  · rw [cutAsmComment_plain, tokens_append (fun c hc => (hm.2 c hc).1) hm.1 rfl, ho.1]
    intro c hc
    simp only [List.mem_append, List.mem_cons] at hc
    rcases hc with hc | rfl | hc
    · exact (hm.2 c hc).2
    · decide
    · exact ho.2 c hc

theorem shapeOf_mnemonic (st : Style) (i : Instr) :
    shapeOf ((st.case (mnemonic i)).map upperChar) = shapeOf (mnemonic i) := by
  have : (mnemonic i).map upperChar = mnemonic i ∧ ((mnemonic i).map lowerChar).map upperChar = mnemonic i := by
    cases i <;> (simp only [mnemonic]; decide)
  unfold Style.case; split
  · rw [this.2]
  · rw [this.1]

theorem parseOffset_renderImm (st : Style) (v : Int) : parseOffset (renderImm st v ++ [']']) = .ok v := by
  simp [parseOffset, parseImm_renderImm]

/-- A line with a first token is assembled from its tokens. -/
theorem assembleInstr_of_tokens {c : Config} {line m : Text} {ops : List Text}
    (h : tokens (cutAsmComment line) = m :: ops) :
    assembleInstr c line = (assembleTokens c m ops).map some := by
  simp only [assembleInstr, trim_ne_nil h, if_false, h]
  cases assembleTokens c m ops <;> rfl

/-- All the ways a line can give an instruction. -/
theorem assembleInstr_eq_some {c : Config} {line : Text} {i : Instr} (h : assembleInstr c line = .ok (some i)) :
    ∃ m ops shape, tokens (cutAsmComment line) = m :: ops ∧ shapeOf (m.map upperChar) = some shape ∧
      assembleOperands c shape ops = .ok i := by
  simp only [assembleInstr] at h
  split at h
  · cases h
  · split at h
    · cases h
    · rename_i m ops ht
      split at h
      · rename_i j hj
        cases h
        simp only [assembleTokens] at hj
        split at hj
        · cases hj
        · rename_i shape hs
          exact ⟨m, ops, shape, ht, hs, hj⟩
      · cases h

/-- All the shapes a mnemonic can have. -/
theorem shapeOf_cases {m : Text} {sh : Shape} (h : shapeOf m = some sh) :
    sh = .sentinel .nop ∨ sh = .sentinel .halt ∨ sh = .branch .b ∨ sh = .branch .bl ∨
    sh = .compareBranch .cbz ∨ sh = .compareBranch .cbnz ∨ sh = .condBranch .bEq ∨ sh = .condBranch .bNe ∨
    sh = .condBranch .bLt ∨ sh = .condBranch .bGe ∨ sh = .immediate .addi ∨ sh = .immediate .subi ∨
    sh = .memory .ldur ∨ sh = .memory .stur ∨ sh = .threeReg .add ∨ sh = .threeReg .sub ∨
    sh = .threeReg .and ∨ sh = .threeReg .orr ∨ sh = .threeReg .eor ∨ sh = .threeReg .mul ∨
    sh = .shift .lsl ∨ sh = .shift .lsr ∨ sh = .compare ∨ sh = .ret := by
  unfold shapeOf at h
  iterate 23
    rcases ite_ok_cases h with ⟨-, h1⟩ | h
    · exact .inl (Option.some.inj h1).symm
    refine .inr ?_
  rcases ite_ok_cases h with ⟨-, h1⟩ | h
  · exact (Option.some.inj h1).symm
  · cases h

/-- Every instruction the assembler makes is well formed. -/
theorem wf_of_assembleOperands {c : Config} {m : Text} {sh : Shape} (hs : shapeOf m = some sh) {l : List Text}
    {i : Instr} (h : assembleOperands c sh l = .ok i) : i.WF c = true := by
  have hc := shapeOf_cases hs
  unfold assembleOperands at h
  simp only [bind, Except.bind] at h
  split at h <;>
  · try simp only [reduceCtorEq, false_or, or_false, Shape.sentinel.injEq, Shape.branch.injEq, Shape.compareBranch.injEq,
      Shape.condBranch.injEq, Shape.immediate.injEq, Shape.memory.injEq, Shape.threeReg.injEq, Shape.shift.injEq] at hc
    repeat' (split at h)
    all_goals first
      | (cases h; done)
      | (cases h; assumption)
      | (cases h; rcases hc with rfl | rfl | rfl | rfl | rfl | rfl <;> rfl)

end Sys2Proof.Machine
end

