-- ==== Sys2Proof/Laws/Image.lean ====
section
/-! SUPPORT. The laws of the program image: a dumped word read back, and what filling memory leaves
(20_memory R60 to R63). -/

namespace Sys2Proof.Machine

theorem cutImageComment_plain {t : Text} (h : ∀ c ∈ t, c ≠ ';' ∧ c ≠ '#') : cutImageComment t = t := by
  induction t with
  | nil => rfl
  | cons c t ih =>
    have hc := h c (by simp)
    simp [cutImageComment, hc, ih fun d hd => h d (by simp [hd])]

theorem trim_plain {t : Text} (h : ∀ c ∈ t, isBlank c = false) : trim t = t := by
  have hd : ∀ u : Text, (∀ c ∈ u, isBlank c = false) → u.dropWhile isBlank = u := by
    intro u hu
    cases u with
    | nil => rfl
    | cons c u => simp [hu c (by simp)]
  unfold trim
  rw [hd t h, hd t.reverse fun c hc => h c (List.mem_reverse.mp hc), List.reverse_reverse]

theorem image_digit {d : Nat} (h : d < 16) :
    (digitChar d ≠ ';' ∧ digitChar d ≠ '#') ∧ isBlank (digitChar d) = false := by
  interval_cases d <;> decide

theorem hexWord_eq (w : Word32) :
    hexWord w = [digitChar (getField w 28 4).toNat, digitChar (getField w 24 4).toNat,
      digitChar (getField w 20 4).toNat, digitChar (getField w 16 4).toNat, digitChar (getField w 12 4).toNat,
      digitChar (getField w 8 4).toNat, digitChar (getField w 4 4).toNat, digitChar (getField w 0 4).toNat] := rfl

theorem nibbles (w : Word32) :
    16 * (16 * (16 * (16 * (16 * (16 * (16 * (getField w 28 4).toNat + (getField w 24 4).toNat) +
      (getField w 20 4).toNat) + (getField w 16 4).toNat) + (getField w 12 4).toNat) + (getField w 8 4).toNat) +
      (getField w 4 4).toNat) + (getField w 0 4).toNat = w.toNat := by
  have := w.isLt
  simp only [getField, BitVec.extractLsb'_toNat, Nat.shiftRight_eq_div_pow]
  omega

theorem parseNumber_hexWord (w : Word32) : parseNumber 16 (hexWord w) = some w.toNat := by
  have hb : ∀ lo, (getField w lo 4).toNat < 16 := fun lo => (getField w lo 4).isLt
  rw [hexWord_eq]
  simp only [parseNumber, parseDigits, digitVal_digitChar (hb _), hb, if_true, reduceCtorEq, if_false]
  rw [← nibbles w]
  simp

/-- A dumped line holds the word it was dumped from. -/
theorem parseImageLine_dumpLine (w : Word32) : parseImageLine (dumpLine w) = some w := by
  have hb : ∀ lo, (getField w lo 4).toNat < 16 := fun lo => (getField w lo 4).isLt
  have hall : ∀ c ∈ dumpLine w, (c ≠ ';' ∧ c ≠ '#') ∧ isBlank c = false := by
    simp only [dumpLine, hexWord_eq, List.mem_cons, List.mem_nil_iff, or_false]
    rintro c (rfl | rfl | rfl | rfl | rfl | rfl | rfl | rfl | rfl | rfl)
    · decide
    · decide
    all_goals exact image_digit (hb _)
  unfold parseImageLine
  rw [cutImageComment_plain fun c hc => (hall c hc).1, trim_plain fun c hc => (hall c hc).2]
  have hl : (hexWord w).length = 8 := rfl
  simp only [dumpLine, imageDigits, hl, le_refl, if_true, parseNumber_hexWord, Option.map_some, BitVec.ofNat_toNat,
    BitVec.setWidth_eq]

/-- What storing words from an index on leaves: the words there, and every other word as it was. -/
theorem fillWords_spec {m : Memory} (h : m.WF) {i : Nat} {l : List Word32} (hl : i + l.length ≤ m.capacity) :
    (fillWords m i l).WF ∧ (fillWords m i l).capacity = m.capacity ∧
    ∀ j, (fillWords m i l).word j = if i ≤ j ∧ j < i + l.length then l.getD (j - i) 0 else m.word j := by
  induction l generalizing m i with
  | nil => exact ⟨h, rfl, fun j => by simp [fillWords]⟩
  | cons w l ih =>
    simp only [List.length_cons] at hl
    obtain ⟨h1, h2, h3⟩ := ih (setWord_wf h (i := i) (by omega) w) (i := i + 1) (by simp; omega)
    refine ⟨h1, h2, fun j => ?_⟩
    simp only [fillWords, h3, word_setWord h.2.1, List.length_cons]
    by_cases hj : j = i
    · subst hj; simp
    · by_cases hj' : i + 1 ≤ j ∧ j < i + 1 + l.length
      · have e : j - i = j - (i + 1) + 1 := by omega
        rw [if_pos hj', if_pos (by omega), e, List.getD_cons_succ]
      · rw [if_neg hj', if_neg hj, if_neg (by omega)]

end Sys2Proof.Machine
end

