-- ==== Sys2Proof/Laws/PerInstr.lean ====
section
/-! SUPPORT. Statements made for every instruction, one lemma for each constructor (named in LAWS.json). -/

namespace Sys2Proof.Laws.EncodeFills

/-- The encoder writes the canonical value in the bits the decoder ignores, under every assignment (30_encoding R87,
R114). -/
def Statement (i : Instr) : Prop := ∀ e : Enc, encodeWith e i &&& ignoredBits i = ignoredFill i

theorem bcond_fill (e : Enc) (cc : BitVec 4) (off : BitVec 19) : encodeBcond e cc off &&& 0x1F#32 = 0x1F#32 := by
  change (e.opcBcond ++ cc ++ off.setWidth 15 ++ 0x1F#5) &&& (0#8 ++ 0#4 ++ 0#15 ++ 0x1F#5) = _
  simp only [BitVec.and_append, BitVec.and_zero, BitVec.and_self]
  rfl

theorem register_fill (op : BitVec 11) (rm rn rd : RegIdx) :
    (op ++ rm ++ 0#6 ++ rn ++ rd : Word32) &&& 0xFC00#32 = 0#32 := by
  change _ &&& (0#11 ++ 0#5 ++ 0x3F#6 ++ 0#5 ++ 0#5) = _
  simp only [BitVec.and_append, BitVec.and_zero, BitVec.zero_and]
  rfl

theorem memory_fill (op : BitVec 11) (off : BitVec 9) (rn rt : RegIdx) :
    (op ++ off ++ 0#2 ++ rn ++ rt : Word32) &&& 0xC00#32 = 0#32 := by
  change _ &&& (0#11 ++ 0#9 ++ 0x3#2 ++ 0#5 ++ 0#5) = _
  simp only [BitVec.and_append, BitVec.and_zero, BitVec.zero_and]
  rfl

theorem cmp_fill (e : Enc) (rm rn : RegIdx) : encodeX e rm e.fnCmp rn 31#5 &&& 0x1F#32 = 0x1F#32 := by
  change (e.opcX ++ rm ++ e.fnCmp ++ rn ++ 0x1F#5) &&& (0#11 ++ 0#5 ++ 0#6 ++ 0#5 ++ 0x1F#5) = _
  simp only [BitVec.and_append, BitVec.and_zero, BitVec.and_self]
  rfl

theorem ret_fill (e : Enc) (rn : RegIdx) : encodeX e 0#5 e.fnRet rn 0#5 &&& 0x1F001F#32 = 0#32 := by
  change (e.opcX ++ 0#5 ++ e.fnRet ++ rn ++ 0#5) &&& (0#11 ++ 0x1F#5 ++ 0#6 ++ 0#5 ++ 0x1F#5) = _
  simp only [BitVec.and_append, BitVec.and_zero, BitVec.zero_and]
  rfl

theorem b (off : BitVec 26) : Statement (.b off) := fun _ => BitVec.and_zero

theorem bl (off : BitVec 26) : Statement (.bl off) := fun _ => BitVec.and_zero

theorem cbz (rt : RegIdx) (off : BitVec 19) : Statement (.cbz rt off) := fun _ => BitVec.and_zero

theorem cbnz (rt : RegIdx) (off : BitVec 19) : Statement (.cbnz rt off) := fun _ => BitVec.and_zero

theorem bEq (off : BitVec 19) : Statement (.bEq off) := fun _ => bcond_fill _ _ _

theorem bNe (off : BitVec 19) : Statement (.bNe off) := fun _ => bcond_fill _ _ _

theorem bGe (off : BitVec 19) : Statement (.bGe off) := fun _ => bcond_fill _ _ _

theorem bLt (off : BitVec 19) : Statement (.bLt off) := fun _ => bcond_fill _ _ _

theorem addi (rd rn : RegIdx) (imm : BitVec 12) : Statement (.addi rd rn imm) := fun _ => BitVec.and_zero

theorem subi (rd rn : RegIdx) (imm : BitVec 12) : Statement (.subi rd rn imm) := fun _ => BitVec.and_zero

theorem add (rd rn rm : RegIdx) : Statement (.add rd rn rm) := fun _ => register_fill _ _ _ _

theorem sub (rd rn rm : RegIdx) : Statement (.sub rd rn rm) := fun _ => register_fill _ _ _ _

theorem ldur (rt rn : RegIdx) (off : BitVec 9) : Statement (.ldur rt rn off) := fun _ => memory_fill _ _ _ _

theorem stur (rt rn : RegIdx) (off : BitVec 9) : Statement (.stur rt rn off) := fun _ => memory_fill _ _ _ _

theorem and (rd rn rm : RegIdx) : Statement (.and rd rn rm) := fun _ => BitVec.and_zero

theorem orr (rd rn rm : RegIdx) : Statement (.orr rd rn rm) := fun _ => BitVec.and_zero

theorem eor (rd rn rm : RegIdx) : Statement (.eor rd rn rm) := fun _ => BitVec.and_zero

theorem mul (rd rn rm : RegIdx) : Statement (.mul rd rn rm) := fun _ => BitVec.and_zero

theorem lsl (rd rn : RegIdx) (sh : BitVec 5) : Statement (.lsl rd rn sh) := fun _ => BitVec.and_zero

theorem lsr (rd rn : RegIdx) (sh : BitVec 5) : Statement (.lsr rd rn sh) := fun _ => BitVec.and_zero

theorem cmp (rn rm : RegIdx) : Statement (.cmp rn rm) := fun _ => cmp_fill _ _ _

theorem ret (rn : RegIdx) : Statement (.ret rn) := fun _ => ret_fill _ _

theorem nop : Statement (.nop) := fun _ => BitVec.and_zero

theorem halt : Statement (.halt) := fun _ => BitVec.and_zero

end Sys2Proof.Laws.EncodeFills
end

