-- ==== Sys2Proof/Laws/Step.lean ====
section
/-! SUPPORT. What an instruction and a step can do, said once (40_fetch R121). -/

namespace Sys2Proof.Machine

/-! ## Each instruction's answer -/

theorem exec_b (s : State) (off : BitVec 26) :
    exec (.b off) s = .next (advanceTo s (branchTarget s off)) := rfl

theorem exec_bl (s : State) (off : BitVec 26) :
    exec (.bl off) s = .next (advanceTo (writeX s 30#5 (s.pc + 4)) (branchTarget s off)) := rfl

theorem exec_halt (s : State) : exec .halt s = .next (setHalted s) := rfl

theorem exec_ldur_eq_next {s t : State} {rt rn : RegIdx} {off : BitVec 9} :
    exec (.ldur rt rn off) s = .next t ↔
      Accessible s.mem (effectiveAddress s rn off) ∧
      t = advanceTo (writeX s rt (zext (s.mem.word ((effectiveAddress s rn off).toNat / 4)))) (s.pc + 4) := by
  simp only [exec, execLdur]
  split
  · rename_i v h
    rw [memRead_eq_ok] at h
    rw [writeAndContinue_eq_next, ← h.2.2]
    exact ⟨fun e => ⟨⟨h.1, h.2.1⟩, e⟩, fun e => e.2⟩
  · rename_i f h
    constructor
    · intro e; simp at e
    · rintro ⟨⟨h1, h2⟩, -⟩
      have : memRead s.mem (effectiveAddress s rn off) = .ok _ := memRead_eq_ok.mpr ⟨h1, h2, rfl⟩
      rw [this] at h; cases h

theorem exec_stur_eq_next {s t : State} {rt rn : RegIdx} {off : BitVec 9} :
    exec (.stur rt rn off) s = .next t ↔
      Accessible s.mem (effectiveAddress s rn off) ∧
      t = advanceTo (setMem s (s.mem.setWord ((effectiveAddress s rn off).toNat / 4) (lowWord (readX s rt))))
        (s.pc + 4) := by
  simp only [exec, execStur]
  split
  · rename_i m h
    rw [memWrite_eq_ok] at h
    rw [continueNext_eq_next, ← h.2.2]
    exact ⟨fun e => ⟨⟨h.1, h.2.1⟩, e⟩, fun e => e.2⟩
  · rename_i f h
    constructor
    · intro e; simp at e
    · rintro ⟨⟨h1, h2⟩, -⟩
      have : memWrite s.mem (effectiveAddress s rn off) (lowWord (readX s rt)) = .ok _ :=
        memWrite_eq_ok.mpr ⟨h1, h2, rfl⟩
      rw [this] at h; cases h

/-- All that an instruction that runs can do: move `pc`; write one register, the one its encoding names (or the
link register) and move `pc`; write the flags, if it is `CMP`; write one word of memory, if it is `STUR`; halt, if it
is `HALT`. -/
theorem exec_next_cases {i : Instr} {s t : State} (h : exec i s = .next t) :
    (destinationOf i = none ∧ (∃ p, t = advanceTo s p)) ∨
    (∃ r v p, destinationOf i = some r ∧ t = advanceTo (writeX s r v) p) ∨
    (∃ rn rm, i = .cmp rn rm ∧ t = advanceTo (setFlags s (readX s rn) (readX s rm)) (s.pc + 4)) ∨
    (∃ rt rn off, i = .stur rt rn off ∧ Accessible s.mem (effectiveAddress s rn off) ∧
      t = advanceTo (setMem s (s.mem.setWord ((effectiveAddress s rn off).toNat / 4) (lowWord (readX s rt))))
        (s.pc + 4)) ∨
    (i = .halt ∧ t = setHalted s) := by
  cases i with
  | b off => exact .inl ⟨rfl, _, continueAt_eq_next.mp h⟩
  | bl off => exact .inr (.inl ⟨_, _, _, rfl, continueAt_eq_next.mp h⟩)
  | cbz rt off => exact .inl ⟨rfl, _, continueAt_eq_next.mp h⟩
  | cbnz rt off => exact .inl ⟨rfl, _, continueAt_eq_next.mp h⟩
  | bEq off => exact .inl ⟨rfl, _, continueAt_eq_next.mp h⟩
  | bNe off => exact .inl ⟨rfl, _, continueAt_eq_next.mp h⟩
  | bGe off => exact .inl ⟨rfl, _, continueAt_eq_next.mp h⟩
  | bLt off => exact .inl ⟨rfl, _, continueAt_eq_next.mp h⟩
  | addi rd rn imm => exact .inr (.inl ⟨_, _, _, rfl, writeAndContinue_eq_next.mp h⟩)
  | subi rd rn imm => exact .inr (.inl ⟨_, _, _, rfl, writeAndContinue_eq_next.mp h⟩)
  | add rd rn rm => exact .inr (.inl ⟨_, _, _, rfl, writeAndContinue_eq_next.mp h⟩)
  | sub rd rn rm => exact .inr (.inl ⟨_, _, _, rfl, writeAndContinue_eq_next.mp h⟩)
  | ldur rt rn off => exact .inr (.inl ⟨_, _, _, rfl, (exec_ldur_eq_next.mp h).2⟩)
  | stur rt rn off => exact .inr (.inr (.inr (.inl ⟨rt, rn, off, rfl, exec_stur_eq_next.mp h⟩)))
  | and rd rn rm => exact .inr (.inl ⟨_, _, _, rfl, writeAndContinue_eq_next.mp h⟩)
  | orr rd rn rm => exact .inr (.inl ⟨_, _, _, rfl, writeAndContinue_eq_next.mp h⟩)
  | eor rd rn rm => exact .inr (.inl ⟨_, _, _, rfl, writeAndContinue_eq_next.mp h⟩)
  | mul rd rn rm => exact .inr (.inl ⟨_, _, _, rfl, writeAndContinue_eq_next.mp h⟩)
  | lsl rd rn sh => exact .inr (.inl ⟨_, _, _, rfl, writeAndContinue_eq_next.mp h⟩)
  | lsr rd rn sh => exact .inr (.inl ⟨_, _, _, rfl, writeAndContinue_eq_next.mp h⟩)
  | cmp rn rm => exact .inr (.inr (.inl ⟨rn, rm, rfl, continueNext_eq_next.mp h⟩))
  | ret rn => exact .inl ⟨rfl, _, continueAt_eq_next.mp h⟩
  | nop => exact .inl ⟨rfl, _, continueNext_eq_next.mp h⟩
  | halt => exact .inr (.inr (.inr (.inr ⟨rfl, by simpa [exec_halt, eq_comm] using h⟩)))

/-- All that an instruction can fault with: a load's or a store's address check (60_exceptions R223, item 4). -/
theorem exec_fault_cases {i : Instr} {s : State} {f : Fault} (h : exec i s = .fault f) :
    ∃ rt rn off, (i = .ldur rt rn off ∨ i = .stur rt rn off) ∧
      check s.mem (effectiveAddress s rn off) = .error f := by
  cases i with
  | ldur rt rn off =>
    refine ⟨rt, rn, off, .inl rfl, ?_⟩
    simp only [exec, execLdur] at h
    split at h
    · simp [writeAndContinue, continueNext, continueAt] at h
    · rename_i f' h'
      simp only [raise, Host.Outcome.fault.injEq] at h
      subst h
      exact memRead_eq_error.mp h'
  | stur rt rn off =>
    refine ⟨rt, rn, off, .inr rfl, ?_⟩
    simp only [exec, execStur] at h
    split at h
    · simp [continueNext, continueAt] at h
    · rename_i f' h'
      simp only [raise, Host.Outcome.fault.injEq] at h
      subst h
      exact memWrite_eq_error.mp h'
  | _ => simp [exec, execB, execBl, execCbz, execCbnz, execBEq, execBNe, execBGe, execBLt, execAddi, execSubi, execAdd,
      execSub, execAnd, execOrr, execEor, execMul, execLsl, execLsr, execCmp, execRet, execNop, execHalt, branchIf,
      writeAndContinue, continueNext, continueAt] at h

/-! ## The step -/

theorem fetch_eq_ok {s : State} {w : Word32} :
    fetch s = .ok w ↔ Accessible s.mem s.pc ∧ w = s.mem.word (s.pc.toNat / 4) := by
  simp [fetch, memRead_eq_ok, Accessible, and_assoc]

/-- A step is the fetched word's decoding and that instruction's effect. -/
theorem cycle_of_decode {c : Config} {s : State} {w : Word32} {i : Instr} (hf : fetch s = .ok w)
    (hd : decodeWith c w = .ok i) : cycle c s = exec i s := by
  simp [cycle, hf, hd]

/-- A fetched word that decodes to `Illegal` raises its fault (40_fetch R126). -/
theorem cycle_of_reject {c : Config} {s : State} {w : Word32} {r : Reject} (hf : fetch s = .ok w)
    (hd : decodeWith c w = .error r) : cycle c s = .fault (.illegalInstruction w) := by
  simp [cycle, hf, hd, raise]

/-- All that a step that runs can be. -/
theorem cycle_eq_next {c : Config} {s t : State} :
    cycle c s = .next t ↔ ∃ w i, fetch s = .ok w ∧ decodeWith c w = .ok i ∧ exec i s = .next t := by
  unfold cycle
  split
  · rename_i f hf
    simp [hf]
  · rename_i w hf
    split
    · rename_i r hd
      simp [hf, hd]
    · rename_i i hd
      simp [hf, hd]

/-! ## Counted runs -/

/-- A counted run's end is a reachable state. -/
theorem RunsFor.reaches {c : Config} {k : Nat} {s u : State} (h : RunsFor c k s u) : Reaches c s u := by
  induction h with
  | here s => exact .here s
  | step hc _ _ ih => exact .step hc ih

/-- A counted run and one more Running step. -/
theorem RunsFor.snoc {c : Config} {k : Nat} {s t u : State} (h : RunsFor c k s t) (hc : cycle c t = .next u)
    (hr : u.status = .running) : RunsFor c (k + 1) s u := by
  induction h with
  | here s => exact .step hc hr (.here u)
  | step hc' hr' _ ih => exact .step hc' hr' (ih hc)

/-- From one state, one number of steps leads to one state. -/
theorem RunsFor.unique {c : Config} {k : Nat} {s t u : State} (h : RunsFor c k s t) (h' : RunsFor c k s u) : t = u := by
  induction h with
  | here s => cases h'; rfl
  | step hc _ _ ih =>
    cases h' with
    | step hc' _ h'' =>
      rw [hc] at hc'
      cases hc'
      exact ih h''

end Sys2Proof.Machine
end

