-- ==== Sys2Proof/Tests/Slice0.lean ====
section
/-! SUPPORT. The model's own tests: ill-formed terms refused, every constructor's decoding from a word written out from
the spec's encoding, single steps of 95_test_vectors.md (V3), its host and assembler tables (V2, V4, V5), and a witness
for the hypotheses of every obligation that has some. -/

namespace Sys2Proof.Machine.Tests

/-! ## Well-formedness refuses what is ill formed (30_encoding R81, R86; 00_scope R9) -/

theorem test_default_config_is_well_formed : defaultConfig.WF := by decide

theorem test_wf_refuses_two_equal_opcodes : ¬ Enc.WF { defaultEnc with opcBl := 0b000101 } := by decide

theorem test_wf_refuses_an_opcode_inside_another : ¬ Enc.WF { defaultEnc with opcAdd := 0b00010111111 } := by decide

theorem test_wf_refuses_two_equal_functs : ¬ Enc.WF { defaultEnc with fnMul := 0x00 } := by decide

theorem test_wf_refuses_two_equal_conditions : ¬ Enc.WF { defaultEnc with ccLt := 0xA } := by decide

theorem test_wf_refuses_nop_as_halt : ¬ Enc.WF { defaultEnc with nopWord := 0xFFFFFFFF } := by decide

theorem test_wf_refuses_an_opcode_that_matches_halt : ¬ Enc.WF { defaultEnc with opcStur := 0b11111111111 } := by
  decide

theorem test_wf_refuses_an_opcode_that_matches_nop : ¬ Enc.WF { defaultEnc with nopWord := 0x8B000000 } := by decide

theorem test_wf_refuses_an_empty_memory : ¬ Config.WF { defaultConfig with memWords := 0 } := by decide

/-- `Low15`: 16384 words is one too far. -/
theorem test_wf_low15_range :
    Instr.WF defaultConfig (.bLt 16383) = true ∧ Instr.WF defaultConfig (.bLt 16384) = false ∧
    Instr.WF defaultConfig (.bEq (-16384)) = true ∧ Instr.WF defaultConfig (.bEq (-16385)) = false := by decide

/-- `Full19`: the offset's top four bits are the condition code. -/
theorem test_wf_full19_condition :
    Instr.WF { defaultConfig with bcond := .full19 } (.bLt (-163838)) = true ∧
    Instr.WF { defaultConfig with bcond := .full19 } (.bLt 2) = false := by decide

/-! ## Decoding: one word for each constructor, bit by bit from 30_encoding R71 to R82 -/

theorem test_decode_b :
    decode (0b000101#6 ++ 0b11111111111111111111111111#26) = .ok (.b (-1)) := by
  decide

theorem test_decode_bl :
    decode (0b100101#6 ++ 0b00000000000000000000000011#26) = .ok (.bl 3) := by
  decide

theorem test_decode_cbz :
    decode (0b10110100#8 ++ 0b1000000000000000000#19 ++ 0b00001#5) = .ok (.cbz 1 (-262144)) := by
  decide

theorem test_decode_cbnz :
    decode (0b10110101#8 ++ 0b0111111111111111111#19 ++ 0b00000#5) = .ok (.cbnz 0 262143) := by
  decide

theorem test_decode_bEq :
    decode (0b01010100#8 ++ 0b0000#4 ++ 0b100000000000000#15 ++ 0b11111#5) = .ok (.bEq (-16384)) := by
  decide

theorem test_decode_bNe :
    decode (0b01010100#8 ++ 0b0001#4 ++ 0b111111111111101#15 ++ 0b11111#5) = .ok (.bNe (-3)) := by
  decide

theorem test_decode_bGe :
    decode (0b01010100#8 ++ 0b1010#4 ++ 0b011111111111111#15 ++ 0b11111#5) = .ok (.bGe 16383) := by
  decide

theorem test_decode_bLt :
    decode (0b01010100#8 ++ 0b1011#4 ++ 0b000000000000010#15 ++ 0b11110#5) = .ok (.bLt 2) := by
  decide

theorem test_decode_addi :
    decode (0b1001000100#10 ++ 0b111111111111#12 ++ 0b00010#5 ++ 0b00001#5) = .ok (.addi 1 2 4095) := by
  decide

theorem test_decode_subi :
    decode (0b1101000100#10 ++ 0b000000000001#12 ++ 0b11111#5 ++ 0b11110#5) = .ok (.subi 30 31 1) := by
  decide

theorem test_decode_add :
    decode (0b10001011000#11 ++ 0b00011#5 ++ 0b111111#6 ++ 0b00010#5 ++ 0b00001#5) = .ok (.add 1 2 3) := by
  decide

theorem test_decode_sub :
    decode (0b11001011000#11 ++ 0b00010#5 ++ 0b000000#6 ++ 0b00001#5 ++ 0b00011#5) = .ok (.sub 3 1 2) := by
  decide

theorem test_decode_ldur :
    decode (0b11111000010#11 ++ 0b100000000#9 ++ 0b11#2 ++ 0b00010#5 ++ 0b00001#5) = .ok (.ldur 1 2 (-256)) := by
  decide

theorem test_decode_stur :
    decode (0b11111000000#11 ++ 0b011111111#9 ++ 0b00#2 ++ 0b11110#5 ++ 0b11111#5) = .ok (.stur 31 30 255) := by
  decide

theorem test_decode_and :
    decode (0b10001010000#11 ++ 0b00010#5 ++ 0b000000#6 ++ 0b00001#5 ++ 0b00011#5) = .ok (.and 3 1 2) := by
  decide

theorem test_decode_orr :
    decode (0b10001010000#11 ++ 0b00010#5 ++ 0b000001#6 ++ 0b00001#5 ++ 0b00011#5) = .ok (.orr 3 1 2) := by
  decide

theorem test_decode_eor :
    decode (0b10001010000#11 ++ 0b00010#5 ++ 0b000010#6 ++ 0b00001#5 ++ 0b00011#5) = .ok (.eor 3 1 2) := by
  decide

theorem test_decode_mul :
    decode (0b10001010000#11 ++ 0b00010#5 ++ 0b000011#6 ++ 0b00001#5 ++ 0b00011#5) = .ok (.mul 3 1 2) := by
  decide

theorem test_decode_lsl :
    decode (0b10001010000#11 ++ 0b11111#5 ++ 0b000100#6 ++ 0b00010#5 ++ 0b00001#5) = .ok (.lsl 1 2 31) := by
  decide

theorem test_decode_lsr :
    decode (0b10001010000#11 ++ 0b00100#5 ++ 0b000101#6 ++ 0b00011#5 ++ 0b00100#5) = .ok (.lsr 4 3 4) := by
  decide

theorem test_decode_cmp :
    decode (0b10001010000#11 ++ 0b00001#5 ++ 0b000110#6 ++ 0b00010#5 ++ 0b11111#5) = .ok (.cmp 2 1) := by
  decide

theorem test_decode_ret :
    decode (0b10001010000#11 ++ 0b11111#5 ++ 0b000111#6 ++ 0b11110#5 ++ 0b00101#5) = .ok (.ret 30) := by
  decide

theorem test_decode_nop :
    decode (0b1101010100000011#16 ++ 0b0010000000011111#16) = .ok (.nop) := by
  decide

theorem test_decode_halt :
    decode (0b1111111111111111#16 ++ 0b1111111111111111#16) = .ok (.halt) := by
  decide

theorem test_decode_illegal :
    decode 0x00000000 = .error .noOpcode ∧ decode 0xFFFFFFFE = .error .noOpcode ∧
    decode 0xD503201E = .error .noOpcode ∧ decode 0x54C0001F = .error .unknownCond ∧
    decode 0x8A002000 = .error .unknownFunct := by decide

/-- S2's note: under `Full19` the word of `B.LT #2` branches by -163838 words. -/
theorem test_decode_full19 :
    decodeWith { defaultConfig with bcond := .full19 } 0x54B0005F = .ok (.bLt (-163838)) := by decide

theorem test_decode_table_word : decodeTableWord 32 0x8A001FC0 = some (.ret 30) := by decide

theorem test_decode_bytes_too_short : decodeBytes defaultConfig [0xFF, 0xFF, 0xFF] = .error .truncated := by decide

/-! ## Single steps (95_test_vectors V3, each row's start and result) -/

/-- The reset state with the given registers and flags, `w` in the word at `pc`, and one more word of memory. -/
def start (pc : Word) (w : Word32) (regs : List (RegIdx × Word)) (z n : Bool := false) (i : Nat := 63)
    (v : Word32 := 0) : State :=
  let s := regs.foldl (fun s p => writeX s p.1 p.2) State.reset
  { s with pc := pc, z := z, n := n, mem := (s.mem.setWord i v).setWord (pc.toNat / 4) w }

/-- The step answers a next state with this register and `pc`, status Running and these flags. -/
def gives (s : State) (r : RegIdx) (v pc : Word) (z n : Bool := false) : Bool :=
  match step s with
  | .next t => readX t r == v && t.pc == pc && t.status == .running && t.z == z && t.n == n
  | .fault _ | .refused _ => false

/-- The step answers a next state with this word of memory. -/
def stores (s : State) (i : Nat) (v : Word32) : Bool :=
  match step s with
  | .next t => t.mem.word i == v && t.pc == s.pc + 4
  | .fault _ | .refused _ => false

theorem test_step_b_forward :
    gives (start 0x0 0x14000003 []) 30 0 0xC = true := by
  decide

theorem test_step_b_wraps_below_zero :
    gives (start 0x0 0x17FFFFFF []) 30 0 0xFFFFFFFFFFFFFFFC = true := by
  decide

theorem test_step_bl_links :
    gives (start 0x4 0x94000003 []) 30 0x8 0x10 = true := by
  decide

theorem test_step_bl_to_itself :
    gives (start 0x0 0x94000000 [(30, 0x99)]) 30 0x4 0x0 = true := by
  decide

theorem test_step_cbz_taken_on_x31 :
    gives (start 0x4 0xB4FFFFFF []) 31 0 0x0 = true := by
  decide

theorem test_step_cbz_tests_bit_63 :
    gives (start 0x0 0xB4000041 [(1, 0x8000000000000000)]) 1 0x8000000000000000 0x4 = true := by
  decide

theorem test_step_cbnz_taken :
    gives (start 0x10 0xB5FFFFC1 [(1, 4)]) 1 4 0x8 = true := by
  decide

theorem test_step_cbnz_not_taken :
    gives (start 0x10 0xB5FFFFC1 []) 1 0 0x14 = true := by
  decide

theorem test_step_beq_taken :
    gives (start 0x4 0x5400005F [] true) 0 0 0xC true = true := by
  decide

theorem test_step_beq_not_taken :
    gives (start 0x4 0x5400005F [] false true) 0 0 0x8 false true = true := by
  decide

theorem test_step_bne_taken :
    gives (start 0x14 0x541FFFBF []) 0 0 0x8 = true := by
  decide

theorem test_step_bne_not_taken :
    gives (start 0x14 0x541FFFBF [] true) 0 0 0x18 true = true := by
  decide

theorem test_step_blt_taken :
    gives (start 0x4 0x54B0005F [] false true) 0 0 0xC false true = true := by
  decide

theorem test_step_blt_not_taken :
    gives (start 0x4 0x54B0005F [] true) 0 0 0x8 true = true := by
  decide

theorem test_step_bge_taken :
    gives (start 0xC 0x54AFFFFF []) 0 0 0x8 = true := by
  decide

theorem test_step_bge_not_taken :
    gives (start 0xC 0x54AFFFFF [] false true) 0 0 0x10 false true = true := by
  decide

theorem test_step_addi_wraps :
    gives (start 0x0 0x91000421 [(1, 0xFFFFFFFFFFFFFFFF)]) 1 0 0x4 = true := by
  decide

theorem test_step_addi_is_unsigned :
    gives (start 0x0 0x913FFC21 [(1, 1)]) 1 0x1000 0x4 = true := by
  decide

theorem test_step_subi_wraps :
    gives (start 0x0 0xD1000421 []) 1 0xFFFFFFFFFFFFFFFF 0x4 = true := by
  decide

theorem test_step_subi_x31_is_ordinary :
    gives (start 0x0 0xD10003FF [(31, 0x4D)]) 31 0x4D 0x4 = true := by
  decide

theorem test_step_add_into_the_sign :
    gives (start 0x0 0x8B010042 [(1, 1), (2, 0x7FFFFFFFFFFFFFFF)]) 2 0x8000000000000000 0x4 = true := by
  decide

theorem test_step_add_ignores_shamt :
    gives (start 0x0 0x8B00FC41 [(0, 1), (2, 7)]) 1 0x8 0x4 = true := by
  decide

theorem test_step_sub_keeps_flags :
    gives (start 0x0 0xCB020023 [(1, 3), (2, 5)] true) 3 0xFFFFFFFFFFFFFFFE 0x4 true = true := by
  decide

theorem test_step_sub_onto_its_source :
    gives (start 0x0 0xCB000000 [(0, 0x55)]) 0 0 0x4 = true := by
  decide

theorem test_step_ldur_zero_extends :
    gives (start 0x0 0xF8400001 [(0, 8)] false false 2 0xFFFFFFFF) 1 0xFFFFFFFF 0x4 = true := by
  decide

theorem test_step_ldur_uses_its_old_base :
    gives (start 0x0 0xF8400021 [(1, 4)] false false 1 0x55) 1 0x55 0x4 = true := by
  decide

theorem test_step_stur_stores_the_low_half :
    stores (start 0x0 0xF8020002 [(2, 0x123456789ABCDEF0)]) 8 0x9ABCDEF0 = true := by
  decide

theorem test_step_and :
    gives (start 0x0 0x8A020023 [(1, 0xF0F0), (2, 0xFF00)]) 3 0xF000 0x4 = true := by
  decide

theorem test_step_orr :
    gives (start 0x0 0x8A020423 [(1, 0xF0F0), (2, 0xFF00)]) 3 0xFFF0 0x4 = true := by
  decide

theorem test_step_eor :
    gives (start 0x0 0x8A020823 [(1, 0xF0F0), (2, 0xFF00)]) 3 0x0FF0 0x4 = true := by
  decide

theorem test_step_eor_with_itself :
    gives (start 0x0 0x8A010823 [(1, 0x1234), (3, 0x99)]) 3 0 0x4 = true := by
  decide

theorem test_step_mul_drops_the_high_half :
    gives (start 0x0 0x8A020C23 [(1, 0x100000000), (2, 0x100000000), (3, 0x99)]) 3 0 0x4 = true := by
  decide

theorem test_step_mul_of_the_most_negative :
    gives (start 0x0 0x8A020C23 [(1, 0x8000000000000000), (2, 0xFFFFFFFFFFFFFFFF)]) 3
    0x8000000000000000 0x4 = true := by
  decide

theorem test_step_lsl :
    gives (start 0x0 0x8A1F1021 [(1, 0x80000000)]) 1 0x4000000000000000 0x4 = true := by
  decide

theorem test_step_lsl_by_zero :
    gives (start 0x0 0x8A001041 [(2, 0xABC)]) 1 0xABC 0x4 = true := by
  decide

theorem test_step_lsr_fills_with_zeros :
    gives (start 0x0 0x8A041464 [(3, 0x8000000000000000)]) 4 0x0800000000000000 0x4 = true := by
  decide

theorem test_step_lsr_by_31 :
    gives (start 0x0 0x8A1F1441 [(2, 0x8000000000000000)]) 1 0x100000000 0x4 = true := by
  decide

theorem test_step_cmp_overflow_is_not_corrected :
    gives (start 0x0 0x8A02183F [(1, 0x7FFFFFFFFFFFFFFF), (2, 0xFFFFFFFFFFFFFFFF)]) 31 0 0x4
    false true = true := by
  decide

theorem test_step_cmp_equal_keeps_x31 :
    gives (start 0x0 0x8A01183F [(1, 9), (31, 0x77)] false true) 31 0x77 0x4 true = true := by
  decide

theorem test_step_ret :
    gives (start 0x0 0x8A001FC0 [(30, 0x42)]) 30 0x42 0x42 = true := by
  decide

theorem test_step_ret_x31 :
    gives (start 0x0 0x8A001FE0 [(31, 0x10)]) 31 0x10 0x10 = true := by
  decide

theorem test_step_nop :
    gives (start 0x8 0xD503201F []) 0 0 0xC = true := by
  decide

/-- The step answers the fault. -/
def faults (s : State) (f : Fault) : Bool :=
  match step s with
  | .fault g => g == f
  | .next _ | .refused _ => false

/-- The step answers the same state, halted. -/
def halts (s : State) : Bool :=
  match step s with
  | .next t => t == { s with status := .halted }
  | .fault _ | .refused _ => false

theorem test_step_halt : halts (start 0x0 0xFFFFFFFF [(1, 5)] true) = true := by decide

theorem test_step_ldur_misaligned :
    faults (start 0x0 0xF8400023 [(1, 0xFFFFFFFFFFFFFFFF)]) (.alignmentError 0xFFFFFFFFFFFFFFFF) = true := by decide

theorem test_step_stur_out_of_bounds :
    faults (start 0x0 0xF80FF3DF [(30, 1)]) (.outOfBounds 0x100) = true := by decide

/-- V3; and R254: straight after reset, with memory newly cleared. -/
theorem test_step_illegal :
    faults (start 0x4 0x00000000 []) (.illegalInstruction 0x00000000) = true ∧
    faults State.reset (.illegalInstruction 0x00000000) = true := by decide

theorem test_step_fetch_faults :
    faults (advanceTo State.reset 0x2) (.alignmentError 0x2) = true ∧
    faults (advanceTo State.reset 0x100) (.outOfBounds 0x100) = true := by decide

/-- An instruction placed by `withFetchWord` is the one the next step runs. -/
theorem test_withFetchWord :
    gives (State.reset.withFetchWord 32 0x91001401) 1 5 4 = true ∧
    gives ({ State.reset with pc := 0x102 }.withFetchWord 32 0x91001401) 1 5 4 = true := by decide

/-! ## The host's operations (95_test_vectors V2, V5, S6) -/

/-- V2, row by row. -/
theorem test_check :
    check State.reset.mem 0xFC = .ok 63 ∧ check State.reset.mem 0x100 = .error (.outOfBounds 0x100) ∧
    check State.reset.mem 0xFF = .error (.alignmentError 0xFF) ∧
    check State.reset.mem 0x102 = .error (.alignmentError 0x102) ∧
    check State.reset.mem 0xFFFFFFFFFFFFFFFC = .error (.outOfBounds 0xFFFFFFFFFFFFFFFC) := by decide

/-- V5's image: blank, comment and unparseable lines fill nothing. -/
theorem test_image_lines :
    ["0x91001401".toList, "".toList, "; comment".toList, "FFFFFFFF # halt".toList, "xyz".toList].filterMap
      parseImageLine = [0x91001401, 0xFFFFFFFF] := by decide

theorem test_dump_line : dumpLine 0x91001401 = "0x91001401".toList := by decide

/-- V5: a register index outside 0 to 31. -/
theorem test_register_index :
    hostGetX 32 State.reset = (.fault (.registerIndexError 32), State.reset) ∧
    hostSetX (-1) 0 State.reset = (.fault (.registerIndexError (-1)), State.reset) := by decide

/-- V5: `storeWord(6, 1)` faults, and no word changes. -/
theorem test_store_word_misaligned :
    hostStoreWord 6 1 State.reset = (.fault (.alignmentError 6), State.reset) := by decide

/-- S6: one word more than the memory has. -/
theorem test_capacity :
    loadImage 1 ["1".toList, "2".toList] = .error .capacityExceeded := by decide

/-! ## Assembler and disassembler (95_test_vectors V4) -/

theorem test_assemble_words :
    assemble defaultConfig "addi x1, x0, #0x5".toList = .ok (some 0x91001401) ∧
    assemble defaultConfig "ADD X1, X2, X3 // sum".toList = .ok (some 0x8B030041) ∧
    assemble defaultConfig "LDUR X1, [X2, #-256]".toList = .ok (some 0xF8500041) ∧
    assemble defaultConfig "B.LT #2".toList = .ok (some 0x54B0005F) ∧
    assemble defaultConfig "RET".toList = .ok (some 0x8A001FE0) ∧
    assemble defaultConfig "; only a comment".toList = .ok none := by decide

theorem test_assemble_errors :
    assemble defaultConfig "ADDI X1, X0, #4096".toList = .error .rangeError ∧
    assemble defaultConfig "ADDI X1, X0".toList = .error .arityError ∧
    assemble defaultConfig "ADDI X32, X0, #1".toList = .error .invalidOperand ∧
    assemble defaultConfig "FOO X1".toList = .error .unknownInstruction ∧
    assemble defaultConfig "CBZ X1, #262144".toList = .error .refused ∧
    assemble defaultConfig "B.LT #16384".toList = .error .refused ∧
    assemble defaultConfig "LSL X1, X2, #40".toList = .error .refused ∧
    assemble defaultConfig "LSL X1, X2, #64".toList = .error .rangeError := by decide

/-- R100, R108: an empty line is no error; a line that is not empty and names no mnemonic is malformed. -/
theorem test_assemble_line_without_a_mnemonic :
    assemble defaultConfig " // only a comment".toList = .ok none ∧
    assemble defaultConfig " , ".toList = .error .syntaxError := by decide

theorem test_disassemble :
    disassemble ⟨false, false, false, 1⟩ defaultConfig 0x8A02183F = "CMP X1, X2".toList ∧
    disassemble ⟨false, false, false, 1⟩ defaultConfig 0x8A1F1021 = "LSL X1, X1, #31".toList ∧
    disassemble ⟨false, false, false, 1⟩ defaultConfig 0x00000000 = "00000000".toList := by decide

/-! ## Witnesses: states and operands that meet each obligation's hypotheses together -/

/-- A machine of one word, with `w` in it, at `pc` and with the given registers. -/
def small (w : Word32) (regs : List (RegIdx × Word)) (pc : Word := 0) : State :=
  let s := regs.foldl (fun s p => writeX s p.1 p.2) (State.created { defaultConfig with memWords := 1 })
  { setMem s (s.mem.setWord 0 w) with pc := pc }

/-- The other reading of `BCOND_OFFSET`. -/
def full19Config : Config := { defaultConfig with bcond := .full19 }

theorem witness_ResetValuesOfTheCpu :
    (∃ c, State.reset = State.created c) ∧ (∃ u, cpuReset (small 1 [(31, 5)] 7) = cpuReset u) :=
  ⟨⟨defaultConfig, rfl⟩, ⟨_, rfl⟩⟩

theorem witness_ClearAndResetAreIndependent :
    (∃ r t, hostMay defaultConfig .clear (small 1 [(31, 5)] 7) r t) ∧
    (∃ r t, hostMay defaultConfig (.loadProgram []) (small 1 [(31, 5)] 7) r t) ∧
    (∃ r t, hostMay defaultConfig .reset (small 1 [(31, 5)] 7) r t) :=
  ⟨⟨_, _, rfl⟩, ⟨_, _, rfl⟩, ⟨_, _, rfl⟩⟩

theorem witness_HostCpuAccess :
    ((-1 : Int) < 0 ∨ 31 < (-1 : Int)) ∧ ((32 : Int) < 0 ∨ 31 < (32 : Int)) ∧
    (∃ r t, hostMay defaultConfig (.setPC 0xFFFFFFFFFFFFFFFF) State.reset r t) :=
  ⟨by decide, by decide, ⟨_, _, rfl⟩⟩

theorem witness_EveryRegisterIsOrdinary : (30 : RegIdx) ≠ 31 ∧ (0 : RegIdx) ≠ 31 := by decide

/-- The last word, the first byte after it, and an address that is both misaligned and beyond. -/
theorem witness_CheckDecidesEveryAccess :
    ((0x102 : Word).toNat % 4 ≠ 0) ∧
    ((0x100 : Word).toNat % 4 = 0 ∧ State.reset.mem.capacity ≤ (0x100 : Word).toNat / 4) ∧
    ((0xFC : Word).toNat % 4 = 0 ∧ (0xFC : Word).toNat / 4 < State.reset.mem.capacity) := by decide

theorem witness_WrappedAddressIsOutOfBounds :
    State.reset.mem.capacity ≤ 2 ^ 61 ∧
    ((0x8000000000000000 : Word).toInt < 0 ∧ (0x8000000000000000 : Word).toInt % 4 = 0) ∧
    ((0xFFFFFFFFFFFFFFFF : Word).toInt < 0 ∧ (0xFFFFFFFFFFFFFFFF : Word).toInt % 4 ≠ 0) := by decide

theorem witness_MemoryReadsBackWhatWasWritten :
    (small 0xDEADBEEF []).mem.WF ∧ check State.reset.mem 0xFC = .ok 63 ∧ (62 : Nat) ≠ 63 ∧
    ((251 : Nat) < 4 * 63 ∨ 4 * 63 + 4 ≤ 251) ∧ ((256 : Nat) < 4 * 63 ∨ 4 * 63 + 4 ≤ 256) := by decide

theorem witness_HostWordAccess :
    (∃ r t, hostMay defaultConfig (.loadWord 0) (small 1 []) r t) ∧
    (∃ r t, hostMay defaultConfig (.storeWord 4 1) (small 1 []) r t) := ⟨⟨_, _, rfl⟩, ⟨_, _, rfl⟩⟩

/-- Each row's smallest or largest word. -/
theorem witness_DefaultOpcodeTableDecodes :
    (0x17FFFFFF : Word32) &&& 0xFC000000 = 0x14000000 ∧ (0x94000000 : Word32) &&& 0xFC000000 = 0x94000000 ∧
    (0xB4FFFFFF : Word32) &&& 0xFF000000 = 0xB4000000 ∧ (0xB5000000 : Word32) &&& 0xFF000000 = 0xB5000000 ∧
    (0x540FFFFF : Word32) &&& 0xFFF00000 = 0x54000000 ∧ (0x54100000 : Word32) &&& 0xFFF00000 = 0x54100000 ∧
    (0x54AFFFFF : Word32) &&& 0xFFF00000 = 0x54A00000 ∧ (0x54B00000 : Word32) &&& 0xFFF00000 = 0x54B00000 ∧
    (0x913FFFFF : Word32) &&& 0xFFC00000 = 0x91000000 ∧ (0xD1000000 : Word32) &&& 0xFFC00000 = 0xD1000000 ∧
    (0x8B1FFFFF : Word32) &&& 0xFFE00000 = 0x8B000000 ∧ (0xCB000000 : Word32) &&& 0xFFE00000 = 0xCB000000 ∧
    (0xF85FFFFF : Word32) &&& 0xFFE00000 = 0xF8400000 ∧ (0xF8000000 : Word32) &&& 0xFFE00000 = 0xF8000000 ∧
    (0x8A1F03FF : Word32) &&& 0xFFE0FC00 = 0x8A000000 ∧ (0x8A000400 : Word32) &&& 0xFFE0FC00 = 0x8A000400 ∧
    (0x8A1F0BFF : Word32) &&& 0xFFE0FC00 = 0x8A000800 ∧ (0x8A000C00 : Word32) &&& 0xFFE0FC00 = 0x8A000C00 ∧
    (0x8A1F13FF : Word32) &&& 0xFFE0FC00 = 0x8A001000 ∧ (0x8A001400 : Word32) &&& 0xFFE0FC00 = 0x8A001400 ∧
    (0x8A1F1BFF : Word32) &&& 0xFFE0FC00 = 0x8A001800 ∧ (0x8A001C00 : Word32) &&& 0xFFE0FC00 = 0x8A001C00 ∧
    (0xD503201F : Word32) &&& 0xFFFFFFFF = 0xD503201F ∧ (0xFFFFFFFF : Word32) &&& 0xFFFFFFFF = 0xFFFFFFFF := by decide

/-- Both readings of `BCOND_OFFSET`, at the ends of the offset's range. -/
theorem witness_DecodeOfEncode :
    defaultConfig.enc.WF ∧ Instr.WF defaultConfig (.bLt (-16384)) = true ∧ Instr.WF defaultConfig (.bEq 16383) = true ∧
    full19Config.enc.WF ∧ Instr.WF full19Config (.bLt (-131073)) = true ∧ Instr.WF full19Config (.bEq 0) = true := by
  decide

theorem witness_EncodeOfDecodeIsCanonical :
    decodeWith defaultConfig 0x8A1F1FC5 = .ok (.ret 30) ∧ decodeWith full19Config 0x54BFFFFE = .ok (.bLt (-131073)) := by
  decide

theorem witness_IgnoredBitsDoNotMatter :
    defaultConfig.enc.WF ∧ decodeWith defaultConfig 0x8A1F1FC5 = .ok (.ret 30) ∧
    (0x8A001FC0 : Word32) &&& ~~~ ignoredBits (.ret 30) = 0x8A1F1FC5 &&& ~~~ ignoredBits (.ret 30) := by decide

theorem witness_OpcodePatternsAreExclusive :
    defaultEnc.WF ∧ (⟨8, 0b10110100⟩ : Pattern) ∈ defaultEnc.patterns ∧ (⟨8, 0b10110100⟩ : Pattern).Matches 0xB4000041 :=
  by decide

/-- A word with no opcode, one with a condition outside the four, and one with a funct outside the eight. -/
theorem witness_IllegalWords :
    defaultConfig.enc.WF ∧ (∀ p ∈ defaultEnc.patterns, ¬ p.Matches 0xFFFFFFFE) ∧
    (getField 0x54C0001F 24 8 = defaultEnc.opcBcond ∧ getField 0x54C0001F 20 4 ∉ defaultEnc.conds) ∧
    (getField 0x8A002000 21 11 = defaultEnc.opcX ∧ getField 0x8A002000 10 6 ∉ defaultEnc.functs) := by decide

theorem witness_BitFieldPrimitives :
    ((0 : Nat) ≤ 31 ∧ 31 < 32 ∧ 31 < 32) ∧ ((31 : Nat) ≤ 31 ∧ 31 < 32 ∧ 0 < 32) ∧ ((0 : Nat) < 1 ∧ 1 ≤ 32) ∧
    ((0 : Nat) < 32 ∧ 32 ≤ 32) := by decide

theorem witness_ImmediateArithmetic :
    defaultConfig.enc.WF ∧ getField 0x913FFFFF 22 10 = defaultEnc.opcAddi ∧
    getField 0xD1000000 22 10 = defaultEnc.opcSubi := by decide

theorem witness_RegisterArithmetic :
    defaultConfig.enc.WF ∧ getField 0x8B1FFFFF 21 11 = defaultEnc.opcAdd ∧
    getField 0xCB000000 21 11 = defaultEnc.opcSub := by decide

theorem witness_BitwiseLogic :
    defaultConfig.enc.WF ∧
    (getField 0x8A1F03FF 21 11 = defaultEnc.opcX ∧ getField 0x8A1F03FF 10 6 = defaultEnc.fnAnd) ∧
    (getField 0x8A000400 21 11 = defaultEnc.opcX ∧ getField 0x8A000400 10 6 = defaultEnc.fnOrr) ∧
    (getField 0x8A1F0BFF 21 11 = defaultEnc.opcX ∧ getField 0x8A1F0BFF 10 6 = defaultEnc.fnEor) := by decide

theorem witness_MultiplyLow :
    defaultConfig.enc.WF ∧ getField 0x8A1F0FFF 21 11 = defaultEnc.opcX ∧
    getField 0x8A1F0FFF 10 6 = defaultEnc.fnMul := by decide

theorem witness_ImmediateShifts :
    defaultConfig.enc.WF ∧
    (getField 0x8A1F13FF 21 11 = defaultEnc.opcX ∧ getField 0x8A1F13FF 10 6 = defaultEnc.fnLsl) ∧
    (getField 0x8A001400 21 11 = defaultEnc.opcX ∧ getField 0x8A001400 10 6 = defaultEnc.fnLsr) := by decide

theorem witness_CompareSetsBothFlags :
    defaultConfig.enc.WF ∧ getField 0x8A1F1BFF 21 11 = defaultEnc.opcX ∧
    getField 0x8A1F1BFF 10 6 = defaultEnc.fnCmp := by decide

theorem witness_ReturnJumpsToRegister :
    defaultConfig.enc.WF ∧ getField 0x8A1F1FFF 21 11 = defaultEnc.opcX ∧
    getField 0x8A1F1FFF 10 6 = defaultEnc.fnRet := by decide

theorem witness_BranchAndLink :
    defaultConfig.enc.WF ∧ getField 0x17FFFFFF 26 6 = defaultEnc.opcB ∧
    getField 0x94000000 26 6 = defaultEnc.opcBl := by decide

/-- A register that is zero, one whose only set bit is bit 63, and `X31`. -/
theorem witness_CompareAndBranch :
    defaultConfig.enc.WF ∧ getField 0xB4FFFFFF 24 8 = defaultEnc.opcCbz ∧
    getField 0xB5000000 24 8 = defaultEnc.opcCbnz ∧ readX State.reset 31 = 0 ∧
    readX (small 0 [(1, 0x8000000000000000)]) 1 ≠ 0 := by decide

theorem witness_ConditionalBranches :
    defaultConfig.enc.WF ∧ full19Config.enc.WF ∧ getField 0x54080000 24 8 = defaultEnc.opcBcond ∧
    (defaultConfig.bcond = .low15 ∧ (-16384 : BitVec 19).toInt = (getField 0x54080000 5 15).toInt) ∧
    (full19Config.bcond = .full19 ∧ (16384 : BitVec 19) = getField 0x54080000 5 19) ∧
    getField 0x54080000 20 4 = defaultEnc.ccEq ∧ getField 0x54100000 20 4 = defaultEnc.ccNe ∧
    getField 0x54B00000 20 4 = defaultEnc.ccLt ∧ getField 0x54A00000 20 4 = defaultEnc.ccGe := by decide

/-- An offset that reaches the last word, one that goes beyond it, and one that is misaligned and beyond. -/
theorem witness_LoadWordResult :
    defaultConfig.enc.WF ∧ getField 0xF85FFFFF 21 11 = defaultEnc.opcLdur ∧
    Accessible State.reset.mem (effectiveAddress State.reset 0 252) ∧
    (effectiveAddress State.reset 0 255).toNat % 4 ≠ 0 ∧
    ((effectiveAddress State.reset 0 (-4)).toNat % 4 = 0 ∧
      State.reset.mem.capacity ≤ (effectiveAddress State.reset 0 (-4)).toNat / 4) := by decide

theorem witness_StoreWordResult :
    defaultConfig.enc.WF ∧ getField 0xF8000000 21 11 = defaultEnc.opcStur ∧ State.reset.Inv ∧
    Accessible State.reset.mem (effectiveAddress State.reset 0 252) ∧
    (effectiveAddress State.reset 0 255).toNat % 4 ≠ 0 ∧
    ((effectiveAddress State.reset 0 (-4)).toNat % 4 = 0 ∧
      State.reset.mem.capacity ≤ (effectiveAddress State.reset 0 (-4)).toNat / 4) := by decide

theorem witness_SentinelsRun : defaultConfig.enc.nopWord ≠ haltWord := by decide

/-- An instruction and an illegal word in the one word of a memory. -/
theorem witness_StepRunsTheDecodedInstruction :
    (Accessible (small 0x91001401 []).mem (small 0x91001401 []).pc ∧
      decodeWith defaultConfig ((small 0x91001401 []).mem.word 0) = .ok (.addi 1 0 5)) ∧
    (Accessible (small 0x12345678 []).mem (small 0x12345678 []).pc ∧
      decodeWith defaultConfig ((small 0x12345678 []).mem.word 0) = .error .noOpcode) := by decide

/-- Each of the rule's ways to fault, reached. -/
theorem witness_StepFaultsExactlyWhen :
    faults (small 0 [] 0x6) (.alignmentError 0x6) = true ∧ faults (small 0 [] 0x4) (.outOfBounds 0x4) = true ∧
    faults (small 0x8A00FC00 []) (.illegalInstruction 0x8A00FC00) = true ∧
    faults (small 0xF8400000 [(0, 5)]) (.alignmentError 0x5) = true ∧
    faults (small 0xF8000000 [(0, 4)]) (.outOfBounds 0x4) = true := by decide

theorem witness_FaultsArePrecise :
    hostMay defaultConfig .step (small 0 [] 0x6) (.fault (.alignmentError 0x6)) (small 0 [] 0x6) := rfl

theorem witness_StatusTellsWhetherHaltWasFetched :
    (∃ t, hostMay defaultConfig .step (small 0xFFFFFFFF []) (.stepped false) t) ∧
    fetch (small 0xFFFFFFFF []) = .ok haltWord ∧
    (∃ t, hostMay defaultConfig .step (small 0xD503201F []) (.stepped true) t) ∧
    fetch (small 0xD503201F []) ≠ .ok haltWord := ⟨⟨_, rfl⟩, by decide, ⟨_, rfl⟩, by decide⟩

theorem witness_HaltRepeats :
    fetch (small 0xFFFFFFFF [(1, 5)]) = .ok haltWord ∧
    ∃ t, cycle defaultConfig (small 0xFFFFFFFF [(1, 5)]) = .next t := ⟨by decide, ⟨_, rfl⟩⟩

theorem witness_OnlyCompareWritesFlags :
    (∃ t, exec (.sub 0 0 0) (small 0 []) = .next t) ∧ ∀ rn rm, Instr.sub 0 0 0 ≠ .cmp rn rm :=
  ⟨⟨_, rfl⟩, fun _ _ h => nomatch h⟩

/-- A destination that is also a source, and one register more in the second state; a fault; and `B.LT`, which reads
the flags. -/
theorem witness_RegistersReadAndWritten :
    ((∃ t, exec (.add 1 1 2) (small 0 [(1, 3), (2, 4)]) = .next t) ∧ destinationOf (.add 1 1 2) ≠ some 2) ∧
    ((small 0 [(1, 3), (2, 4), (9, 9)]).pc = (small 0 [(1, 3), (2, 4)]).pc ∧
      (small 0 [(1, 3), (2, 4), (9, 9)]).mem = (small 0 [(1, 3), (2, 4)]).mem ∧
      (readsFlags (.add 1 1 2) = true → FlagsKept (small 0 [(1, 3), (2, 4)]) (small 0 [(1, 3), (2, 4), (9, 9)])) ∧
      ∀ r ∈ sourcesOf (.add 1 1 2),
        readX (small 0 [(1, 3), (2, 4), (9, 9)]) r = readX (small 0 [(1, 3), (2, 4)]) r) ∧
    (exec (.ldur 1 2 0) (small 0 [(2, 5)]) = .fault (.alignmentError 5) ∧
      ∀ r ∈ sourcesOf (.ldur 1 2 0), readX (small 0 [(2, 5), (9, 9)]) r = readX (small 0 [(2, 5)]) r) ∧
    ((∃ t, exec (.bLt 2) (small 0 []) = .next t) ∧ readsFlags (.bLt 2) = true ∧
      FlagsKept (small 0 []) (small 0 [(9, 9)])) :=
  ⟨⟨⟨_, rfl⟩, by decide⟩, by decide, ⟨rfl, by decide⟩, ⟨_, rfl⟩, by decide⟩

theorem witness_OnlyStoreWritesMemory :
    (small 0 [(2, 5)]).Inv ∧ (∃ t, exec (.stur 2 0 0) (small 0 [(2, 5)]) = .next t) ∧
    (∃ t, exec (.add 1 1 2) (small 0 [(2, 5)]) = .next t) ∧ ∀ rt rn off, Instr.add 1 1 2 ≠ .stur rt rn off :=
  ⟨by decide, ⟨_, rfl⟩, ⟨_, rfl⟩, fun _ _ _ h => nomatch h⟩

/-- The last address before `pc` wraps. -/
theorem witness_ProgramCounterAdvance :
    (∃ t, exec (.add 1 1 2) (small 0 [] 0xFFFFFFFFFFFFFFFC) = .next t) ∧
    (small 0 [] 0xFFFFFFFFFFFFFFFC).pc.toNat % 4 = 0 ∧ Instr.variant (.add 1 1 2) = .register ∧
    Instr.add 1 1 2 ≠ .halt ∧ ∀ rn, Instr.add 1 1 2 ≠ .ret rn :=
  ⟨⟨_, rfl⟩, by decide, rfl, by decide, fun _ h => nomatch h⟩

theorem witness_EveryStepKeepsTheInvariant :
    (small 0xF8000002 [(2, 5)]).Inv ∧ ∃ t, cycle defaultConfig (small 0xF8000002 [(2, 5)]) = .next t :=
  ⟨by decide, ⟨_, rfl⟩⟩

theorem witness_ResetHasTheInvariant : Config.WF { defaultConfig with memWords := 1 } := by decide

theorem witness_StoreThenLoad :
    (small 0 [(2, 0xFFFFFFFF00000001)]).Inv ∧
    ∃ t u, exec (.stur 2 0 0) (small 0 [(2, 0xFFFFFFFF00000001)]) = .next t ∧
      effectiveAddress t 0 0 = effectiveAddress (small 0 [(2, 0xFFFFFFFF00000001)]) 0 0 ∧
      exec (.ldur 3 0 0) t = .next u := ⟨by decide, _, _, rfl, by decide, rfl⟩

theorem witness_FetchSeesEarlierStores :
    (small 0 [(2, 0xFFFFFFFF)]).Inv ∧
    ∃ t, ∃ u : State, exec (.stur 2 0 0) (small 0 [(2, 0xFFFFFFFF)]) = .next t ∧ u.mem = t.mem ∧
      u.pc = effectiveAddress (small 0 [(2, 0xFFFFFFFF)]) 0 0 :=
  ⟨by decide, _, { advanceTo (small 0 [(2, 0xFFFFFFFF)]) 0 with
      mem := (small 0 [(2, 0xFFFFFFFF)]).mem.setWord 0 0xFFFFFFFF }, rfl, by decide, by decide⟩

/-- A difference that overflows, where `B.LT` does not follow the signed order, and one that does not. -/
theorem witness_LessThanAfterCompare :
    (∃ t, exec (.cmp 1 2) (small 0 [(1, 0x8000000000000000), (2, 1)]) = .next t ∧ t.n = false) ∧
    (∃ t, exec (.cmp 1 2) (small 0 [(1, 3), (2, 5)]) = .next t ∧ t.n = true) :=
  ⟨⟨_, rfl, by decide⟩, ⟨_, rfl, by decide⟩⟩

theorem witness_CallThenReturn :
    ∃ t, exec (.bl 3) (small 0 [] 4) = .next t ∧ readX (advanceTo t 0x40) 30 = readX t 30 := ⟨_, rfl, rfl⟩

/-- As many words as memory has, and one more. -/
theorem witness_LoadProgramFillsMemory :
    (small 0 []).Inv ∧ (["1".toList].filterMap parseImageLine).length ≤ (small 0 []).mem.capacity ∧
    (small 0 []).mem.capacity < (["1".toList, "2".toList].filterMap parseImageLine).length ∧
    (∃ r t, hostMay defaultConfig (.loadProgram ["1".toList]) (small 0 []) r t) ∧
    ((Memory.zeroed 1).WF ∧ (Memory.zeroed 1).capacity = (small 0 []).mem.capacity) :=
  ⟨by decide, by decide, by decide, ⟨_, _, rfl⟩, by decide⟩

/-- A memory of one word, with `maxWords` below, at and above the capacity, and the first index with no line. -/
theorem witness_DumpThenLoad :
    (small 0xDEADBEEF []).mem.WF ∧ (dumpImage (small 0xDEADBEEF []).mem (some 0))[0]? = none ∧
    (dumpImage (small 0xDEADBEEF []).mem (some 1))[0]? = some "0xDEADBEEF".toList ∧
    (dumpImage (small 0xDEADBEEF []).mem (some 2))[0]? = some "0xDEADBEEF".toList ∧
    (dumpImage (small 0xDEADBEEF []).mem (some 2))[1]? = none := by decide

theorem witness_EveryHostActionKeepsTheInvariant :
    (small 0 []).Inv ∧ ∃ r t, hostMay defaultConfig (.storeWord 0 5) (small 0 []) r t := ⟨by decide, ⟨_, _, rfl⟩⟩

/-- The verdict, the count and the final `pc` of a run. -/
def ends (cap : Nat) (s : State) (verdict : Verdict) (steps : Nat) (pc : Word) : Bool :=
  let r := runLoop defaultConfig cap s
  r.verdict == verdict && r.steps == steps && r.final.pc == pc

/-- Runs that halt, fault and meet the cap, each at the smallest cap that lets it and one below: a run of `HALT`, one of
`NOP` that faults at the end of memory, and one of a cap of no steps. -/
theorem witness_RunLoopVerdicts :
    ends 1 (small 0xFFFFFFFF []) .halted 1 0 = true ∧
    ends 2 (small 0xD503201F []) (.faulted (.outOfBounds 4)) 2 4 = true ∧
    ends 1 (small 0xD503201F []) .capReached 1 4 = true ∧ ends 0 (small 0xFFFFFFFF []) .capReached 0 0 = true := by
  decide

/-- A counted run of one step, the `NOP`'s. -/
theorem witness_RunsFor : ∃ u, RunsFor defaultConfig 1 (small 0xD503201F []) u ∧ u.pc = 4 :=
  ⟨_, .step rfl rfl (.here _), by decide⟩

theorem witness_AssembleOfRender :
    Instr.WF defaultConfig (.bLt (-16384)) = true ∧ Instr.WF full19Config (.bLt (-131073)) = true := by decide

theorem witness_AssembleDisassembleAssemble :
    defaultConfig.enc.WF ∧ assemble defaultConfig "cmp x2 , X31 ; note".toList = .ok (some 0x8A1F185F) := by decide

theorem witness_AssemblerRanges : defaultConfig.bcond = .low15 := rfl

/-- A blank line with a comment, a line of one comma, and a word that is no mnemonic. -/
theorem witness_AssemblerLines :
    trim (cutAsmComment " ; note".toList) = [] ∧
    (trim (cutAsmComment ",".toList) ≠ [] ∧ tokens (cutAsmComment ",".toList) = []) ∧
    (tokens (cutAsmComment "FOO X1".toList) = ["FOO".toList, "X1".toList] ∧
      shapeOf ("FOO".toList.map upperChar) = none) := by decide


end Sys2Proof.Machine.Tests
end

/-! The bit-field primitives of 00_scope R13, R14 and R17, bit by bit. -/

namespace Sys2Proof

/-- `len` ones moved up by `lo` places are the bits from `lo` to `lo + len - 1`. -/
theorem getLsbD_ones_shiftLeft {len lo k : Nat} (hk : k < 32) :
    (BitVec.ofNat 32 (2 ^ len - 1) <<< lo).getLsbD k = decide (lo ≤ k ∧ k < lo + len) := by
  have hplace : k - lo < 32 := by omega
  rw [BitVec.getLsbD_shiftLeft, BitVec.getLsbD_ofNat, Nat.testBit_two_pow_sub_one]
  by_cases hlow : lo ≤ k
  · have hlen : k - lo < len ↔ k < lo + len := by omega
    simp [hk, hplace, hlow, hlen]
  · simp [hlow, Nat.lt_of_not_le hlow]

/-- `setField` bit by bit: inside the field the mask lets `v` through, outside it `w` (00_scope R17). -/
theorem getLsbD_setField {w v : Word32} {hi lo k : Nat} (hlo : lo ≤ hi) (hk : k < 32) :
    (setField w hi lo v).getLsbD k = if lo ≤ k ∧ k ≤ hi then v.getLsbD (k - lo) else w.getLsbD k := by
  have hmask : (lo ≤ k ∧ k < lo + (hi - lo + 1)) ↔ (lo ≤ k ∧ k ≤ hi) := by omega
  simp only [setField, BitVec.getLsbD_or, BitVec.getLsbD_and, BitVec.getLsbD_not, getLsbD_ones_shiftLeft hk, hmask,
    BitVec.getLsbD_shiftLeft]
  by_cases hfield : lo ≤ k ∧ k ≤ hi <;> simp [hfield, hk]

/-- Settles O16, by the bits of the mask for `setField`; the extensions never narrow a field of at most 32 bits. -/
theorem bitFieldPrimitives : Obligations.BitFieldPrimitives := by
  refine ⟨fun w lo len k => BitVec.getLsbD_extractLsb' lo len w k, ?_, ?_⟩
  · intro w v hi lo k hlo _ hk
    exact getLsbD_setField hlo hk
  · intro n v _ hn
    have hwide : n ≤ 64 := by omega
    exact ⟨BitVec.toInt_signExtend_of_le hwide, BitVec.toNat_setWidth_of_le hwide⟩

end Sys2Proof

/-! What an instruction and a step do to the registers, `pc`, the flags and the status (10_state), whichever
instruction it is. -/

namespace Sys2Proof.Machine

/-! ## Registers and reset values -/

/-- Settles O4, by the laws of `writeX`, which treat no index apart from the others. -/
theorem everyRegisterIsOrdinary : Obligations.EveryRegisterIsOrdinary := by
  intro s r v
  exact ⟨readX_writeX_same s r v, fun q hq => readX_writeX_other s v hq⟩

@[simp] theorem readX_created (c : Config) (r : RegIdx) : readX (State.created c) r = 0 := by
  simp [readX, State.created]

@[simp] theorem readX_cpuReset (s : State) (r : RegIdx) : readX (cpuReset s) r = 0 := by
  simp [readX, cpuReset]

/-- Settles O1: `CPU.reset` and creation write the same five values. -/
theorem resetValuesOfTheCpu : Obligations.ResetValuesOfTheCpu := by
  rintro s (⟨c, rfl⟩ | ⟨u, rfl⟩)
  · exact ⟨readX_created c, rfl, rfl, rfl, rfl⟩
  · exact ⟨readX_cpuReset u, rfl, rfl, rfl, rfl⟩

/-! ## The status -/

/-- An instruction reads no status, and one that runs writes it over (10_state R34). -/
theorem exec_ignores_status (i : Instr) (s : State) (st : Status) : exec i { s with status := st } = exec i s := by
  cases i <;> rfl

/-- Settles O35: neither the fetch nor the decoder sees the status, and `exec` ignores it. -/
theorem statusNeverGatesAStep : Obligations.StatusNeverGatesAStep := by
  intro c s st
  have hfetch : fetch { s with status := st } = fetch s := rfl
  simp only [cycle, hfetch, exec_ignores_status]

/-- The status that an instruction leaves (10_state R33). -/
theorem exec_next_status {i : Instr} {s t : State} (h : exec i s = .next t) :
    t.status = if i = .halt then .halted else .running := by
  by_cases hi : i = .halt
  · subst hi
    cases h
    rfl
  · rw [if_neg hi]
    rcases exec_next_cases h with ⟨-, p, rfl⟩ | ⟨r, v, p, -, rfl⟩ | ⟨rn, rm, -, rfl⟩ | ⟨rt, rn, off, -, -, rfl⟩ |
      ⟨hhalt, -⟩
    · rfl
    · rfl
    · rfl
    · rfl
    · exact absurd hhalt hi

/-- `HALT` is the meaning of one word alone, whatever the assignment (30_encoding R79, R84). -/
theorem decodeWith_eq_halt {c : Config} {w : Word32} : decodeWith c w = .ok .halt ↔ w = haltWord := by
  constructor
  · intro h
    rcases decodeWith_cases h with ⟨hw, -⟩ | hrest
    · exact hw
    · have hbcond : decodeBcond c w ≠ .ok .halt := fun hd => by simpa using decodeBcond_cases hd
      have hx : decodeX c.enc w ≠ .ok .halt := fun hd => by simpa using decodeX_cases hd
      simp [hbcond, hx] at hrest
  · rintro rfl
    simp [decodeWith]

/-- A host's step that gives a result is a step, and the result is its status (60_exceptions R236). -/
theorem hostStep_eq_stepped {c : Config} {s t : State} {b : Bool} :
    (.stepped b, t) = hostStep c s ↔ cycle c s = .next t ∧ b = (t.status == .running) := by
  unfold hostStep
  split
  · rename_i u hu
    simp only [hu, Prod.mk.injEq, HostReply.stepped.injEq, Host.Outcome.next.injEq]
    constructor
    · rintro ⟨hb, rfl⟩
      exact ⟨rfl, hb⟩
    · rintro ⟨rfl, hb⟩
      exact ⟨hb, rfl⟩
  · rename_i f hf
    simp [hf]
  · rename_i r hr
    simp [hr]

/-- Settles O34: the status left is `HALT`'s exactly when the fetched word decodes to `HALT`, which is `HALT_WORD`
alone. -/
theorem statusTellsWhetherHaltWasFetched : Obligations.StatusTellsWhetherHaltWasFetched := by
  intro c s t b h
  obtain ⟨hcycle, rfl⟩ := hostStep_eq_stepped.mp h
  obtain ⟨w, i, hfetch, hdecode, hexec⟩ := cycle_eq_next.mp hcycle
  have hstatus := exec_next_status hexec
  have hhalt : i = .halt ↔ fetch s = .ok haltWord := by
    rw [hfetch, Except.ok.injEq, ← decodeWith_eq_halt (c := c), hdecode, Except.ok.injEq]
  refine ⟨fun hf => ?_, fun hf => ?_⟩
  · simp [hstatus, hhalt.mpr hf]
  · simp [hstatus, mt hhalt.mp hf]

/-! ## The flags -/

/-- Settles O37: of the five things an instruction can do, only `CMP`'s writes the flags. -/
theorem onlyCompareWritesFlags : Obligations.OnlyCompareWritesFlags := by
  intro i s t h hcmp
  rcases exec_next_cases h with ⟨-, p, rfl⟩ | ⟨r, v, p, -, rfl⟩ | ⟨rn, rm, hi, -⟩ | ⟨rt, rn, off, -, -, rfl⟩ |
    ⟨-, rfl⟩
  · exact ⟨rfl, rfl⟩
  · exact ⟨rfl, rfl⟩
  · exact absurd hi (hcmp rn rm)
  · exact ⟨rfl, rfl⟩
  · exact ⟨rfl, rfl⟩

/-! ## The program counter -/

/-- Where a conditional branch leaves `pc` (41_branches R148). -/
theorem branchIf_next_pc {n : Nat} {s t : State} {cond : Bool} {off : BitVec n} (h : branchIf s cond off = .next t) :
    t.pc = s.pc + 4 ∨ t.pc = branchTarget s off := by
  obtain rfl := branchIf_eq_next.mp h
  cases cond
  · exact .inl rfl
  · exact .inr rfl

/-- All the places where an instruction that runs can leave `pc`: the next instruction; a branch's target, if it is a
branch; anywhere, if it is `RET`; where it was, if it is `HALT`. -/
theorem exec_next_pc_cases {i : Instr} {s t : State} (h : exec i s = .next t) :
    t.pc = s.pc + 4 ∨
    ((i.variant = .branch ∨ i.variant = .condBranch ∨ i.variant = .compareBranch) ∧
      ∃ (n : Nat) (off : BitVec n), t.pc = branchTarget s off) ∨
    (∃ rn, i = .ret rn) ∨
    (i = .halt ∧ t.pc = s.pc) := by
  cases i with
  | b off | bl off =>
    obtain rfl := continueAt_eq_next.mp h
    exact .inr (.inl ⟨.inl rfl, _, off, rfl⟩)
  | bEq off | bNe off | bGe off | bLt off =>
    exact (branchIf_next_pc h).imp_right fun htarget => .inl ⟨.inr (.inl rfl), _, off, htarget⟩
  | cbz rt off | cbnz rt off =>
    exact (branchIf_next_pc h).imp_right fun htarget => .inl ⟨.inr (.inr rfl), _, off, htarget⟩
  | addi rd rn imm | subi rd rn imm | add rd rn rm | sub rd rn rm | and rd rn rm | orr rd rn rm | eor rd rn rm
  | mul rd rn rm | lsl rd rn sh | lsr rd rn sh =>
    obtain rfl := writeAndContinue_eq_next.mp h
    exact .inl rfl
  | ldur rt rn off =>
    obtain ⟨-, rfl⟩ := exec_ldur_eq_next.mp h
    exact .inl rfl
  | stur rt rn off =>
    obtain ⟨-, rfl⟩ := exec_stur_eq_next.mp h
    exact .inl rfl
  | cmp rn rm | nop =>
    obtain rfl := continueNext_eq_next.mp h
    exact .inl rfl
  | ret rn => exact .inr (.inr (.inl ⟨rn, rfl⟩))
  | halt =>
    cases h
    exact .inr (.inr (.inr ⟨rfl, rfl⟩))

/-- The sum of multiples of 4 is one, for 4 divides `2^64`. -/
theorem aligned_add {a b : Word} (ha : a.toNat % 4 = 0) (hb : b.toNat % 4 = 0) : (a + b).toNat % 4 = 0 := by
  rw [BitVec.toNat_add]
  omega

/-- A branch from an aligned `pc` goes to an aligned one, for its offset counts words (10_state R28). -/
theorem branchTarget_aligned {n : Nat} {s : State} (off : BitVec n) (h : s.pc.toNat % 4 = 0) :
    (branchTarget s off).toNat % 4 = 0 := by
  have hoff : (sext off <<< 2).toNat % 4 = 0 := by
    rw [BitVec.toNat_shiftLeft, Nat.shiftLeft_eq]
    omega
  exact aligned_add h hoff

/-- Settles O40, by the four places where `pc` can be left. -/
theorem programCounterAdvance : Obligations.ProgramCounterAdvance := by
  intro i s t h
  rcases exec_next_pc_cases h with hnext | ⟨hbranch, n, off, htarget⟩ | ⟨rn, hret⟩ | ⟨hhalt, hsame⟩
  · refine ⟨fun _ hs => ?_, fun _ _ _ _ _ => hnext⟩
    rw [hnext]
    exact aligned_add hs rfl
  · refine ⟨fun _ hs => ?_, fun hb hcond hcompare _ _ => ?_⟩
    · rw [htarget]
      exact branchTarget_aligned off hs
    · simp [hb, hcond, hcompare] at hbranch
  · exact ⟨fun hne _ => absurd hret (hne rn), fun _ _ _ hne _ => absurd hret (hne rn)⟩
  · exact ⟨fun _ hs => hsame ▸ hs, fun _ _ _ _ hne => absurd hhalt hne⟩

/-! ## Which registers an instruction writes and reads -/

/-- An instruction writes no register but its destination (10_state R25). -/
theorem exec_keeps_other_regs {i : Instr} {s t : State} (h : exec i s = .next t) {r : RegIdx}
    (hr : destinationOf i ≠ some r) : readX t r = readX s r := by
  rcases exec_next_cases h with ⟨-, p, rfl⟩ | ⟨d, v, p, hd, rfl⟩ | ⟨rn, rm, -, rfl⟩ | ⟨rt, rn, off, -, -, rfl⟩ |
    ⟨-, rfl⟩
  · rfl
  · have hne : r ≠ d := fun e => hr (e ▸ hd)
    simp [hne]
  · rfl
  · rfl
  · rfl

/-- Two states that agree on what the instruction `i` reads (10_state R25, R30). -/
structure AgreeOnInputs (i : Instr) (s s' : State) : Prop where
  pc : s'.pc = s.pc
  mem : s'.mem = s.mem
  flags : readsFlags i = true → FlagsKept s s'
  regs : ∀ r ∈ sourcesOf i, readX s' r = readX s r

/-- Two states that agree on what the instruction `i` may have written. -/
structure AgreeOnOutputs (i : Instr) (t t' : State) : Prop where
  pc : t'.pc = t.pc
  status : t'.status = t.status
  mem : t'.mem = t.mem
  dest : ∀ r, destinationOf i = some r → readX t' r = readX t r
  flags : ∀ rn rm, i = .cmp rn rm → FlagsKept t t'

/-- Two answers of `i` with the same fault, or with next states that agree on what `i` may have written. -/
def SameAnswer (i : Instr) (r r' : Result) : Prop :=
  (∀ f, r = .fault f → r' = .fault f) ∧ ∀ t, r = .next t → ∃ t', r' = .next t' ∧ AgreeOnOutputs i t t'

theorem sameAnswer_next {i : Instr} {t t' : State} (h : AgreeOnOutputs i t t') :
    SameAnswer i (.next t) (.next t') := by
  constructor
  · intro f hf
    cases hf
  · intro u hu
    cases hu
    exact ⟨t', rfl, h⟩

theorem sameAnswer_raise (i : Instr) (f : Fault) : SameAnswer i (raise f) (raise f) :=
  ⟨fun _ hf => hf, fun t ht => absurd ht (raise_ne_next f t)⟩

/-- Ending a step by moving `pc`, after whatever else the instruction wrote. -/
theorem sameAnswer_continueAt {i : Instr} {u u' : State} {p p' : Word} (hp : p' = p) (hmem : u'.mem = u.mem)
    (hdest : ∀ r, destinationOf i = some r → readX u' r = readX u r)
    (hflags : ∀ rn rm, i = .cmp rn rm → FlagsKept u u') :
    SameAnswer i (continueAt u p) (continueAt u' p') :=
  sameAnswer_next ⟨hp, rfl, hmem, hdest, hflags⟩

section
variable {i : Instr} {s s' : State} (h : AgreeOnInputs i s s')
include h

theorem AgreeOnInputs.nextPc_eq : nextPc s' = nextPc s := by
  rw [nextPc, h.pc, nextPc]

theorem AgreeOnInputs.branchTarget_eq {n : Nat} (off : BitVec n) : branchTarget s' off = branchTarget s off := by
  rw [branchTarget, h.pc, branchTarget]

theorem AgreeOnInputs.effectiveAddress_eq {rn : RegIdx} (hrn : rn ∈ sourcesOf i) (off : BitVec 9) :
    effectiveAddress s' rn off = effectiveAddress s rn off := by
  rw [effectiveAddress, h.regs rn hrn, effectiveAddress]

/-- Moving `pc` alone. -/
theorem AgreeOnInputs.sameAnswer_jump {p p' : Word} (hp : p' = p) (hd : destinationOf i = none)
    (hcmp : ∀ rn rm, i ≠ .cmp rn rm) : SameAnswer i (continueAt s p) (continueAt s' p') :=
  sameAnswer_continueAt hp h.mem (fun r hr => by simp [hd] at hr) fun rn rm hi => absurd hi (hcmp rn rm)

/-- Branching on a condition that the two states decide alike. -/
theorem AgreeOnInputs.sameAnswer_branchIf {n : Nat} {cond cond' : Bool} (off : BitVec n) (hcond : cond' = cond)
    (hd : destinationOf i = none) (hcmp : ∀ rn rm, i ≠ .cmp rn rm) :
    SameAnswer i (branchIf s cond off) (branchIf s' cond' off) :=
  h.sameAnswer_jump (by rw [hcond, h.branchTarget_eq, h.nextPc_eq]) hd hcmp

/-- Writing the destination and moving `pc`. -/
theorem AgreeOnInputs.sameAnswer_write {rd : RegIdx} {v v' p p' : Word} (hp : p' = p) (hv : v' = v)
    (hd : destinationOf i = some rd) :
    SameAnswer i (continueAt (writeX s rd v) p) (continueAt (writeX s' rd v') p') := by
  refine sameAnswer_continueAt hp h.mem (fun r hr => ?_) (fun rn rm hi => ?_)
  · obtain rfl : rd = r := Option.some.inj (hd.symm.trans hr)
    simp [hv]
  · simp [hi, destinationOf] at hd

/-- What an instruction answers depends on nothing but its inputs (10_state R25). -/
theorem AgreeOnInputs.sameAnswer_exec : SameAnswer i (exec i s) (exec i s') := by
  cases i with
  | b off => exact h.sameAnswer_jump (h.branchTarget_eq off) rfl nofun
  | bl off => exact h.sameAnswer_write (h.branchTarget_eq off) h.nextPc_eq rfl
  | cbz rt off | cbnz rt off =>
    have hrt := h.regs rt (by simp [sourcesOf])
    exact h.sameAnswer_branchIf off (by rw [hrt]) rfl nofun
  | bEq off | bNe off =>
    obtain ⟨hz, -⟩ := h.flags rfl
    exact h.sameAnswer_branchIf off (by simp [condEq, condNe, hz]) rfl nofun
  | bGe off | bLt off =>
    obtain ⟨-, hn⟩ := h.flags rfl
    exact h.sameAnswer_branchIf off (by simp [condGe, condLt, hn]) rfl nofun
  | addi rd rn imm | subi rd rn imm | lsl rd rn sh | lsr rd rn sh =>
    have hrn := h.regs rn (by simp [sourcesOf])
    exact h.sameAnswer_write h.nextPc_eq (by rw [hrn]) rfl
  | add rd rn rm | sub rd rn rm | and rd rn rm | orr rd rn rm | eor rd rn rm | mul rd rn rm =>
    have hrn := h.regs rn (by simp [sourcesOf])
    have hrm := h.regs rm (by simp [sourcesOf])
    exact h.sameAnswer_write h.nextPc_eq (by rw [hrn, hrm]) rfl
  | ldur rt rn off =>
    simp only [exec, execLdur, h.mem, h.effectiveAddress_eq (rn := rn) (by simp [sourcesOf])]
    split
    · exact h.sameAnswer_write h.nextPc_eq rfl rfl
    · exact sameAnswer_raise _ _
  | stur rt rn off =>
    simp only [exec, execStur, h.mem, h.effectiveAddress_eq (rn := rn) (by simp [sourcesOf]),
      h.regs rt (by simp [sourcesOf])]
    split
    · exact sameAnswer_continueAt h.nextPc_eq rfl nofun nofun
    · exact sameAnswer_raise _ _
  | cmp rn rm =>
    have hrn := h.regs rn (by simp [sourcesOf])
    have hrm := h.regs rm (by simp [sourcesOf])
    refine sameAnswer_continueAt h.nextPc_eq h.mem nofun fun _ _ _ => ?_
    rw [hrn, hrm]
    exact ⟨rfl, rfl⟩
  | ret rn => exact h.sameAnswer_jump (h.regs rn (by simp [sourcesOf])) rfl nofun
  | nop => exact h.sameAnswer_jump h.nextPc_eq rfl nofun
  | halt => exact sameAnswer_next ⟨h.pc, rfl, h.mem, nofun, nofun⟩

end

/-- Settles O38: the frame from what an instruction can write, and the rest from the agreement of its answers. -/
theorem registersReadAndWritten : Obligations.RegistersReadAndWritten := by
  refine ⟨fun i s t h r hr => exec_keeps_other_regs h hr, ?_⟩
  intro i s s' t hpc hmem hflags hregs
  obtain ⟨hfault, hnext⟩ := AgreeOnInputs.sameAnswer_exec ⟨hpc, hmem, hflags, hregs⟩
  refine ⟨hfault, fun ht => ?_⟩
  obtain ⟨t', ht', hout⟩ := hnext t ht
  exact ⟨t', ht', hout.pc, hout.status, hout.mem, hout.dest, hout.flags⟩

end Sys2Proof.Machine

/-! Memory (20_memory): what each access, each instruction and each host operation does to it, and the invariant that
all of them keep. -/

namespace Sys2Proof.Machine

/-! ## Reads and writes -/

/-- Settles O6: a negative address is the upper half of the unsigned range, beyond `2^61` words, and the two readings of
it differ by a multiple of 4. -/
theorem wrappedAddressIsOutOfBounds : Obligations.WrappedAddressIsOutOfBounds := by
  intro m a hcap hneg
  have hhigh : 2 ^ 64 ≤ 2 * a.toNat := BitVec.toInt_neg_iff.mp hneg
  have hsigned : a.toInt = a.toNat - 2 ^ 64 := by
    rw [BitVec.toInt_eq_toNat_cond, if_neg (Nat.not_lt.mpr hhigh)]
    rfl
  rw [hsigned]
  refine ⟨fun haligned => ?_, fun hmis => ?_⟩
  · exact check_eq_error.mpr (.inr ⟨by omega, by omega, rfl⟩)
  · exact check_eq_error.mpr (.inl ⟨by omega, rfl⟩)

/-- A word's write leaves every byte outside the word as it was (20_memory R45). -/
theorem readByte_setWord_outside {m : Memory} (h : m.WF) {i b : Nat} (v : Word32) (hb : b < 4 * i ∨ 4 * i + 4 ≤ b) :
    (m.setWord i v).readByte b = m.readByte b := by
  rw [readByte_setWord h.2.1, if_neg, if_neg, if_neg, if_neg] <;> omega

/-- Settles O7, by the laws of `setWord` at the index that the check gives. -/
theorem memoryReadsBackWhatWasWritten : Obligations.MemoryReadsBackWhatWasWritten := by
  intro m a v hm
  refine ⟨fun f => memRead_eq_error, fun f => memWrite_eq_error, fun i hi => ?_⟩
  obtain ⟨haligned, hbound, rfl⟩ := check_eq_ok.mp hi
  refine ⟨memRead_eq_ok.mpr ⟨haligned, hbound, rfl⟩, _, memWrite_eq_ok.mpr ⟨haligned, hbound, rfl⟩,
    setWord_wf hm hbound v, rfl, ?_, fun j hj => ?_, fun b hb => readByte_setWord_outside hm v hb⟩
  · rw [word_setWord hm.2.1, if_pos rfl]
  · rw [word_setWord hm.2.1, if_neg hj]

theorem memWrite_keeps_outside {m m' : Memory} (hm : m.WF) {a : Word} {v : Word32} (h : memWrite m a v = .ok m')
    {b : Nat} (hb : b < a.toNat ∨ a.toNat + 4 ≤ b) : m'.readByte b = m.readByte b := by
  obtain ⟨haligned, -, rfl⟩ := memWrite_eq_ok.mp h
  exact readByte_setWord_outside hm v (by omega)

/-- A read of the address just written gives the word written (20_memory R44, R45). -/
theorem memRead_memWrite_same {m m' : Memory} (hm : m.WF) {a : Word} {v : Word32} (h : memWrite m a v = .ok m') :
    memRead m' a = .ok v := by
  obtain ⟨haligned, hbound, rfl⟩ := memWrite_eq_ok.mp h
  exact memRead_eq_ok.mpr ⟨haligned, hbound, by rw [word_setWord hm.2.1, if_pos rfl]⟩

/-! ## The invariant across a change of memory -/

/-- What a change of memory keeps: well-formedness and the capacity, a constant of one memory (20_memory R40). -/
def SoundChange (m m' : Memory) : Prop := m.WF → m'.WF ∧ m'.capacity = m.capacity

theorem SoundChange.refl (m : Memory) : SoundChange m m := fun h => ⟨h, rfl⟩

theorem SoundChange.trans {m m' m'' : Memory} (h : SoundChange m m') (h' : SoundChange m' m'') :
    SoundChange m m'' := fun hm =>
  have ⟨hm', hcap⟩ := h hm
  have ⟨hm'', hcap'⟩ := h' hm'
  ⟨hm'', hcap'.trans hcap⟩

theorem soundChange_setWord {m : Memory} {i : Nat} (hi : i < m.capacity) (v : Word32) :
    SoundChange m (m.setWord i v) := fun h => ⟨setWord_wf h hi v, rfl⟩

theorem soundChange_memWrite {m m' : Memory} {a : Word} {v : Word32} (h : memWrite m a v = .ok m') :
    SoundChange m m' := by
  obtain ⟨-, hbound, rfl⟩ := memWrite_eq_ok.mp h
  exact soundChange_setWord hbound v

theorem soundChange_zeroed (m : Memory) : SoundChange m (Memory.zeroed m.capacity) := fun h => ⟨zeroed_wf h.1, rfl⟩

/-- Settles O42: a newly created memory lists nothing, and its capacity is the configuration's. -/
theorem resetHasTheInvariant : Obligations.ResetHasTheInvariant := by
  have hcreated : ∀ c : Config, c.WF → (State.created c).Inv := fun c hc => zeroed_wf hc.2
  exact ⟨hcreated, hcreated defaultConfig (by decide)⟩

/-! ## Steps -/

/-- All that an instruction that runs can do to memory: nothing, or, if it is `STUR`, replace the word at its effective
address (20_memory R45). -/
theorem exec_next_mem_cases {i : Instr} {s t : State} (h : exec i s = .next t) :
    ((∀ rt rn off, i ≠ .stur rt rn off) ∧ t.mem = s.mem) ∨
    (∃ rt rn off, i = .stur rt rn off ∧
      memWrite s.mem (effectiveAddress s rn off) (lowWord (readX s rt)) = .ok t.mem) := by
  by_cases hstur : ∃ rt rn off, i = .stur rt rn off
  · obtain ⟨rt, rn, off, rfl⟩ := hstur
    obtain ⟨⟨haligned, hbound⟩, rfl⟩ := exec_stur_eq_next.mp h
    exact .inr ⟨rt, rn, off, rfl, memWrite_eq_ok.mpr ⟨haligned, hbound, rfl⟩⟩
  · push Not at hstur
    refine .inl ⟨hstur, ?_⟩
    rcases exec_next_cases h with ⟨-, p, rfl⟩ | ⟨r, v, p, -, rfl⟩ | ⟨rn, rm, -, rfl⟩ | ⟨rt, rn, off, hi, -⟩ | ⟨-, rfl⟩
    · rfl
    · rfl
    · rfl
    · exact absurd hi (hstur rt rn off)
    · rfl

theorem soundChange_exec {i : Instr} {s t : State} (h : exec i s = .next t) : SoundChange s.mem t.mem := by
  rcases exec_next_mem_cases h with ⟨-, hsame⟩ | ⟨rt, rn, off, -, hwrite⟩
  · rw [hsame]
    exact .refl s.mem
  · exact soundChange_memWrite hwrite

theorem soundChange_cycle {c : Config} {s t : State} (h : cycle c s = .next t) : SoundChange s.mem t.mem := by
  obtain ⟨w, i, -, -, hexec⟩ := cycle_eq_next.mp h
  exact soundChange_exec hexec

/-- Settles O41: a step that runs is an instruction that runs, and only a checked store changes memory. -/
theorem everyStepKeepsTheInvariant : Obligations.EveryStepKeepsTheInvariant := by
  intro c s t hs h
  exact soundChange_cycle h hs

/-- Settles O39, by the two things an instruction can do to memory. -/
theorem onlyStoreWritesMemory : Obligations.OnlyStoreWritesMemory := by
  intro i s t hs h
  rcases exec_next_mem_cases h with ⟨hne, hsame⟩ | ⟨rt, rn, off, rfl, hwrite⟩
  · exact ⟨fun _ => hsame, fun rt rn off hi => absurd hi (hne rt rn off)⟩
  · refine ⟨fun hne => absurd rfl (hne rt rn off), fun rt' rn' off' hi => ?_⟩
    obtain ⟨-, rfl, rfl⟩ := Instr.stur.inj hi
    obtain ⟨-, hcap⟩ := soundChange_memWrite hwrite hs
    exact ⟨hcap, fun b hb => memWrite_keeps_outside hs hwrite hb⟩

/-- After `STUR`, every read of the stored address gives the low half of the stored register. -/
theorem memRead_of_exec_stur {s t : State} (hs : s.Inv) {rt rn : RegIdx} {off : BitVec 9}
    (h : exec (.stur rt rn off) s = .next t) :
    memRead t.mem (effectiveAddress s rn off) = .ok (lowWord (readX s rt)) := by
  obtain ⟨⟨haligned, hbound⟩, rfl⟩ := exec_stur_eq_next.mp h
  exact memRead_memWrite_same hs (memWrite_eq_ok.mpr ⟨haligned, hbound, rfl⟩)

/-- Settles O44: the fetch is a read of the stored address. -/
theorem fetchSeesEarlierStores : Obligations.FetchSeesEarlierStores := by
  intro s t u rt rn off hs hstur hmem hpc
  rw [fetch, hmem, hpc]
  exact memRead_of_exec_stur hs hstur

/-- Settles O43: the load reads the stored word, and widening it adds only zeros. -/
theorem storeThenLoad : Obligations.StoreThenLoad := by
  intro s t u rt rn rd rb off off' hs hstur haddr hldur
  obtain ⟨-, -, hword⟩ := memRead_eq_ok.mp (memRead_of_exec_stur hs hstur)
  obtain ⟨-, rfl⟩ := exec_ldur_eq_next.mp hldur
  rw [readX_advanceTo, readX_writeX_same, haddr, ← hword, lowWord, BitVec.toNat_setWidth_of_le (by decide),
    BitVec.toNat_setWidth]

/-- All that an instruction can fault with, and when it does (60_exceptions R223). -/
theorem exec_eq_fault {i : Instr} {s : State} {f : Fault} :
    exec i s = .fault f ↔ ∃ rt rn off, (i = .ldur rt rn off ∨ i = .stur rt rn off) ∧
      check s.mem (effectiveAddress s rn off) = .error f := by
  constructor
  · exact exec_fault_cases
  · rintro ⟨rt, rn, off, rfl | rfl, hcheck⟩
    · simp [exec, execLdur, memRead_eq_error.mpr hcheck, raise]
    · simp [exec, execStur, memWrite_eq_error.mpr hcheck, raise]

/-! ## The host's word accesses -/

theorem hostMay_loadWord {c : Config} {s t : State} {r : HostReply} {a : Word} :
    hostMay c (.loadWord a) s r t ↔
      t = s ∧ ((∃ w, memRead s.mem a = .ok w ∧ r = .word w) ∨ (∃ f, memRead s.mem a = .error f ∧ r = .fault f)) := by
  cases hread : memRead s.mem a with
  | ok w => simp [hostMay, hostLoadWord, hread, and_comm]
  | error f => simp [hostMay, hostLoadWord, hread, and_comm]

theorem hostMay_storeWord {c : Config} {s t : State} {r : HostReply} {a : Word} {v : Word32} :
    hostMay c (.storeWord a v) s r t ↔
      (∃ m, memWrite s.mem a v = .ok m ∧ r = .done ∧ t = setMem s m) ∨
      (∃ f, memWrite s.mem a v = .error f ∧ r = .fault f ∧ t = s) := by
  cases hwrite : memWrite s.mem a v with
  | ok m => simp [hostMay, hostStoreWord, hwrite]
  | error f => simp [hostMay, hostStoreWord, hwrite]

/-- Settles O8, by the two outcomes of each access. -/
theorem hostWordAccess : Obligations.HostWordAccess := by
  intro c s t r a v
  exact ⟨hostMay_loadWord, hostMay_storeWord⟩

/-- Settles O5: every access is a `MemRead` or a `MemWrite`, and these fault as the check does. -/
theorem checkDecidesEveryAccess : Obligations.CheckDecidesEveryAccess := by
  refine ⟨fun m a => ⟨fun hmis => ?_, fun haligned hout => ?_, fun haligned hin => ?_⟩,
    fun s f => ⟨memRead_eq_error, fun rt rn off => ?_, fun rt rn off => ?_, fun c a => ?_,
      fun c a v => ?_⟩⟩
  · exact check_eq_error.mpr (.inl ⟨hmis, rfl⟩)
  · exact check_eq_error.mpr (.inr ⟨haligned, hout, rfl⟩)
  · exact check_eq_ok.mpr ⟨haligned, hin, rfl⟩
  · simp [exec_eq_fault]
  · simp [exec_eq_fault]
  · simp [hostMay_loadWord, memRead_eq_error]
  · simp [hostMay_storeWord, memWrite_eq_error]

/-! ## The program image -/

theorem loadImage_of_capacity_lt {capacity : Nat} {lines : List Text}
    (h : capacity < (lines.filterMap parseImageLine).length) :
    loadImage capacity lines = .error .capacityExceeded := by
  simp [loadImage, h]

/-- The lines' words from word 0 on, and zero after: what a load that fits leaves (20_memory R60). -/
theorem loadImage_of_length_le {capacity : Nat} {lines : List Text} (hpos : 0 < capacity)
    (h : (lines.filterMap parseImageLine).length ≤ capacity) :
    ∃ m, loadImage capacity lines = .ok m ∧ m.WF ∧ m.capacity = capacity ∧
      ∀ i, m.word i = (lines.filterMap parseImageLine).getD i 0 := by
  have hfit : 0 + (lines.filterMap parseImageLine).length ≤ (Memory.zeroed capacity).capacity := by simpa using h
  obtain ⟨hwf, hcap, hword⟩ := fillWords_spec (zeroed_wf hpos) hfit
  refine ⟨_, if_neg (Nat.not_lt.mpr h), hwf, hcap, fun i => ?_⟩
  rw [hword i]
  by_cases hi : i < (lines.filterMap parseImageLine).length
  · simp [hi]
  · simp [hi, zeroed_word]

theorem hostMay_loadProgram_of_ok {c : Config} {s t : State} {r : HostReply} {lines : List Text} {m : Memory}
    (h : loadImage s.mem.capacity lines = .ok m) :
    hostMay c (.loadProgram lines) s r t ↔ r = .done ∧ t = setMem s m := by
  simp [hostMay, h]

theorem hostMay_loadProgram_of_error {c : Config} {s t : State} {r : HostReply} {lines : List Text} {f : Fault}
    (h : loadImage s.mem.capacity lines = .error f) :
    hostMay c (.loadProgram lines) s r t ↔
      r = .fault f ∧ ∃ m : Memory, m.WF ∧ m.capacity = s.mem.capacity ∧ t = setMem s m := by
  simp [hostMay, h]

theorem cpuKept_setMem (s : State) (m : Memory) : CpuKept s (setMem s m) :=
  ⟨fun _ => rfl, rfl, ⟨rfl, rfl⟩, rfl⟩

/-- Settles O47, by whether the lines' words fit. -/
theorem loadProgramFillsMemory : Obligations.LoadProgramFillsMemory := by
  rintro c s t r lines words ⟨hpos, -⟩ rfl
  refine ⟨fun hfit => ?_, fun hover => ?_⟩
  · obtain ⟨m, hload, -, hcap, hword⟩ := loadImage_of_length_le hpos hfit
    refine ⟨⟨.done, setMem s m, (hostMay_loadProgram_of_ok hload).mpr ⟨rfl, rfl⟩⟩, fun h => ?_⟩
    obtain ⟨rfl, rfl⟩ := (hostMay_loadProgram_of_ok hload).mp h
    exact ⟨rfl, cpuKept_setMem s m, hcap, hword⟩
  · have hfault := loadImage_of_capacity_lt hover
    refine ⟨fun h => ?_, fun m hm hcap => ?_⟩
    · obtain ⟨rfl, m, -, -, rfl⟩ := (hostMay_loadProgram_of_error hfault).mp h
      exact ⟨rfl, cpuKept_setMem s m⟩
    · exact (hostMay_loadProgram_of_error hfault).mpr ⟨rfl, m, hm, hcap, rfl⟩

theorem dumpImage_getElem? (m : Memory) (maxWords : Option Nat) (i : Nat) :
    (dumpImage m maxWords)[i]? =
      if i < min (maxWords.getD m.capacity) m.capacity then some (dumpLine (m.word i)) else none := by
  rw [dumpImage, List.getElem?_map]
  split
  · rename_i hi
    rw [List.getElem?_range hi, Option.map_some]
  · rename_i hi
    rw [List.getElem?_eq_none (by rw [List.length_range]; exact Nat.not_lt.mp hi), Option.map_none]

/-- The words read back from a whole dump are the memory's, in order. -/
theorem filterMap_parseImageLine_dumpImage (m : Memory) :
    (dumpImage m none).filterMap parseImageLine = (List.range m.capacity).map m.word := by
  simp [dumpImage, List.filterMap_map, parseImageLine_dumpLine]

/-- A whole dump loads, and what it loads reads like the memory dumped; memories that read alike are equal. -/
theorem loadImage_dumpImage {m : Memory} (h : m.WF) : loadImage m.capacity (dumpImage m none) = .ok m := by
  have hwords := filterMap_parseImageLine_dumpImage m
  obtain ⟨m', hload, hwf, hcap, hword⟩ := loadImage_of_length_le h.1 (lines := dumpImage m none) (by simp [hwords])
  have hsame : m' = m := by
    refine memory_ext hwf h hcap fun i hi => ?_
    have hi' : i < m.capacity := hcap ▸ hi
    rw [hword i, hwords]
    simp [hi']
  rw [hload, hsame]

/-- Settles O48, by the length of the dumped range and `loadImage_dumpImage`. -/
theorem dumpThenLoad : Obligations.DumpThenLoad := by
  refine ⟨fun m maxWords i => ?_, fun m i => ?_, fun m hm => loadImage_dumpImage hm⟩
  · simp [dumpImage_getElem?]
  · simp [dumpImage_getElem?]

/-! ## Every host operation keeps the invariant -/

theorem soundChange_reaches {c : Config} {s t : State} (h : Reaches c s t) : SoundChange s.mem t.mem := by
  induction h with
  | here s => exact .refl s.mem
  | step hc _ ih => exact (soundChange_cycle hc).trans ih

/-- The run loop ends in a state that its steps reach, whatever its verdict. -/
theorem reaches_runLoop_final (c : Config) (cap : Nat) (s : State) : Reaches c s (runLoop c cap s).final := by
  induction cap generalizing s with
  | zero => exact .here s
  | succ cap ih =>
    unfold runLoop
    split
    · exact .here s
    · exact .here s
    · rename_i t hc
      split
      · exact .step hc (.here t)
      · exact .step hc (ih t)

theorem soundChange_hostStep (c : Config) (s : State) : SoundChange s.mem (hostStep c s).2.mem := by
  unfold hostStep
  split
  · rename_i t hc
    exact soundChange_cycle hc
  · exact .refl s.mem
  · exact .refl s.mem

theorem hostGetX_state (i : Int) (s : State) : (hostGetX i s).2 = s := by
  unfold hostGetX
  split <;> rfl

theorem hostSetX_mem (i : Int) (v : Word) (s : State) : (hostSetX i v s).2.mem = s.mem := by
  unfold hostSetX
  split <;> rfl

theorem soundChange_storeWord {c : Config} {s t : State} {r : HostReply} {a : Word} {v : Word32}
    (h : hostMay c (.storeWord a v) s r t) : SoundChange s.mem t.mem := by
  rcases hostMay_storeWord.mp h with ⟨m, hwrite, -, rfl⟩ | ⟨f, -, -, rfl⟩
  · exact soundChange_memWrite hwrite
  · exact .refl _

theorem soundChange_loadProgram {c : Config} {s t : State} {r : HostReply} {lines : List Text}
    (h : hostMay c (.loadProgram lines) s r t) : SoundChange s.mem t.mem := by
  intro hs
  by_cases hfit : (lines.filterMap parseImageLine).length ≤ s.mem.capacity
  · obtain ⟨m, hload, hwf, hcap, -⟩ := loadImage_of_length_le hs.1 hfit
    obtain ⟨-, rfl⟩ := (hostMay_loadProgram_of_ok hload).mp h
    exact ⟨hwf, hcap⟩
  · have hfault := loadImage_of_capacity_lt (Nat.not_le.mp hfit)
    obtain ⟨-, m, hwf, hcap, rfl⟩ := (hostMay_loadProgram_of_error hfault).mp h
    exact ⟨hwf, hcap⟩

/-- Every host operation is a sound change of memory (60_exceptions R242). -/
theorem soundChange_hostMay {c : Config} {a : HostAction} {s t : State} {r : HostReply} (h : hostMay c a s r t) :
    SoundChange s.mem t.mem := by
  cases a with
  | step =>
    obtain rfl : t = (hostStep c s).2 := congrArg Prod.snd h
    exact soundChange_hostStep c s
  | getX i =>
    obtain rfl : t = s := (congrArg Prod.snd h).trans (hostGetX_state i s)
    exact .refl _
  | setX i v =>
    obtain rfl : t = (hostSetX i v s).2 := congrArg Prod.snd h
    rw [hostSetX_mem]
    exact .refl _
  | loadWord addr =>
    obtain ⟨rfl, -⟩ := hostMay_loadWord.mp h
    exact .refl _
  | storeWord addr v => exact soundChange_storeWord h
  | loadProgram lines => exact soundChange_loadProgram h
  | run =>
    obtain rfl : t = (runLoop c c.runCap s).final := congrArg Prod.snd h
    exact soundChange_reaches (reaches_runLoop_final c c.runCap s)
  | clear =>
    cases h
    exact soundChange_zeroed s.mem
  | getPC | setPC v | getFlags | reset | dumpProgram maxWords =>
    cases h
    exact .refl s.mem

/-- Settles O49, operation by operation; the run loop is a run of steps. -/
theorem everyHostActionKeepsTheInvariant : Obligations.EveryHostActionKeepsTheInvariant := by
  intro c a s t r hs h
  exact soundChange_hostMay h hs

end Sys2Proof.Machine

/-! The decoder and the encoder (30_encoding sections 2 to 6): what each opcode decodes to, and that decoding and
encoding are inverse up to the ignored bits. -/

namespace Sys2Proof

/-! ## The conditions of a well-formed assignment, by name (30_encoding R81) -/

section
variable {e : Enc} (h : e.WF)
include h

theorem Enc.WF.functs_nodup : e.functs.Nodup := h.2.1

theorem Enc.WF.conds_nodup : e.conds.Nodup := h.2.2.1

theorem Enc.WF.nopWord_ne_haltWord : e.nopWord ≠ haltWord := h.2.2.2.1

/-- A word that carries an opcode pattern is no sentinel. -/
theorem Enc.WF.not_sentinel {w : Word32} {p : Pattern} (hp : p ∈ e.patterns) (hw : p.Matches w) :
    w ≠ haltWord ∧ w ≠ e.nopWord := by
  obtain ⟨hhalt, hnop⟩ := h.2.2.2.2 p hp
  exact ⟨fun he => hhalt (he ▸ hw), fun he => hnop (he ▸ hw)⟩

end

/-! ## One decoding rule per opcode -/

/-- What the decoder makes of a word that carries the opcode pattern at place `j` of `Enc.patterns` (30_encoding
R84). -/
def opcodeMeaning (c : Config) (w : Word32) : Nat → Except Reject Instr
  | 0 => .ok (.b (getField w 0 26))
  | 1 => .ok (.bl (getField w 0 26))
  | 2 => .ok (.cbz (getField w 0 5) (getField w 5 19))
  | 3 => .ok (.cbnz (getField w 0 5) (getField w 5 19))
  | 4 => decodeBcond c w
  | 5 => .ok (.addi (getField w 0 5) (getField w 5 5) (getField w 10 12))
  | 6 => .ok (.subi (getField w 0 5) (getField w 5 5) (getField w 10 12))
  | 7 => .ok (.add (getField w 0 5) (getField w 5 5) (getField w 16 5))
  | 8 => .ok (.sub (getField w 0 5) (getField w 5 5) (getField w 16 5))
  | 9 => .ok (.ldur (getField w 0 5) (getField w 5 5) (getField w 12 9))
  | 10 => .ok (.stur (getField w 0 5) (getField w 5 5) (getField w 12 9))
  | 11 => decodeX c.enc w
  | _ => .error .noOpcode

/-- Under a well-formed assignment the order of the decoder's tests changes nothing: the one pattern that a word
carries decides. -/
theorem decodeWith_of_matches {c : Config} {w : Word32} (h : c.enc.WF) {j : Nat} (hj : j < c.enc.patterns.length)
    (hm : c.enc.patterns[j].Matches w) : decodeWith c w = opcodeMeaning c w j := by
  obtain ⟨hhalt, hnop, htests⟩ := h.tests hj hm
  have hj' : j < 12 := hj
  simp only [decodeWith, hhalt, hnop, htests, if_false]
  interval_cases j <;> rfl

section
variable {c : Config} {w : Word32} (h : c.enc.WF)
include h

theorem decodeWith_of_opcB (hw : getField w 26 6 = c.enc.opcB) : decodeWith c w = .ok (.b (getField w 0 26)) :=
  decodeWith_of_matches h (j := 0) (by simp [Enc.patterns]) ((matches_iff_getField rfl w _).mpr hw)

theorem decodeWith_of_opcBl (hw : getField w 26 6 = c.enc.opcBl) : decodeWith c w = .ok (.bl (getField w 0 26)) :=
  decodeWith_of_matches h (j := 1) (by simp [Enc.patterns]) ((matches_iff_getField rfl w _).mpr hw)

theorem decodeWith_of_opcCbz (hw : getField w 24 8 = c.enc.opcCbz) :
    decodeWith c w = .ok (.cbz (getField w 0 5) (getField w 5 19)) :=
  decodeWith_of_matches h (j := 2) (by simp [Enc.patterns]) ((matches_iff_getField rfl w _).mpr hw)

theorem decodeWith_of_opcCbnz (hw : getField w 24 8 = c.enc.opcCbnz) :
    decodeWith c w = .ok (.cbnz (getField w 0 5) (getField w 5 19)) :=
  decodeWith_of_matches h (j := 3) (by simp [Enc.patterns]) ((matches_iff_getField rfl w _).mpr hw)

theorem decodeWith_of_opcBcond (hw : getField w 24 8 = c.enc.opcBcond) : decodeWith c w = decodeBcond c w :=
  decodeWith_of_matches h (j := 4) (by simp [Enc.patterns]) ((matches_iff_getField rfl w _).mpr hw)

theorem decodeWith_of_opcAddi (hw : getField w 22 10 = c.enc.opcAddi) :
    decodeWith c w = .ok (.addi (getField w 0 5) (getField w 5 5) (getField w 10 12)) :=
  decodeWith_of_matches h (j := 5) (by simp [Enc.patterns]) ((matches_iff_getField rfl w _).mpr hw)

theorem decodeWith_of_opcSubi (hw : getField w 22 10 = c.enc.opcSubi) :
    decodeWith c w = .ok (.subi (getField w 0 5) (getField w 5 5) (getField w 10 12)) :=
  decodeWith_of_matches h (j := 6) (by simp [Enc.patterns]) ((matches_iff_getField rfl w _).mpr hw)

theorem decodeWith_of_opcAdd (hw : getField w 21 11 = c.enc.opcAdd) :
    decodeWith c w = .ok (.add (getField w 0 5) (getField w 5 5) (getField w 16 5)) :=
  decodeWith_of_matches h (j := 7) (by simp [Enc.patterns]) ((matches_iff_getField rfl w _).mpr hw)

theorem decodeWith_of_opcSub (hw : getField w 21 11 = c.enc.opcSub) :
    decodeWith c w = .ok (.sub (getField w 0 5) (getField w 5 5) (getField w 16 5)) :=
  decodeWith_of_matches h (j := 8) (by simp [Enc.patterns]) ((matches_iff_getField rfl w _).mpr hw)

theorem decodeWith_of_opcLdur (hw : getField w 21 11 = c.enc.opcLdur) :
    decodeWith c w = .ok (.ldur (getField w 0 5) (getField w 5 5) (getField w 12 9)) :=
  decodeWith_of_matches h (j := 9) (by simp [Enc.patterns]) ((matches_iff_getField rfl w _).mpr hw)

theorem decodeWith_of_opcStur (hw : getField w 21 11 = c.enc.opcStur) :
    decodeWith c w = .ok (.stur (getField w 0 5) (getField w 5 5) (getField w 12 9)) :=
  decodeWith_of_matches h (j := 10) (by simp [Enc.patterns]) ((matches_iff_getField rfl w _).mpr hw)

theorem decodeWith_of_opcX (hw : getField w 21 11 = c.enc.opcX) : decodeWith c w = decodeX c.enc w :=
  decodeWith_of_matches h (j := 11) (by simp [Enc.patterns]) ((matches_iff_getField rfl w _).mpr hw)

end

/-! ## Condition codes and funct codes -/

/-- The conditional branch whose condition code stands at place `k` of `Enc.conds` (30_encoding R84). -/
def condMeaning (off : BitVec 19) : Nat → Except Reject Instr
  | 0 => .ok (.bEq off)
  | 1 => .ok (.bNe off)
  | 2 => .ok (.bLt off)
  | 3 => .ok (.bGe off)
  | _ => .error .unknownCond

/-- What a word of the X format means whose funct code stands at place `k` of `Enc.functs` (30_encoding R84). -/
def functMeaning (w : Word32) : Nat → Except Reject Instr
  | 0 => .ok (.and (getField w 0 5) (getField w 5 5) (getField w 16 5))
  | 1 => .ok (.orr (getField w 0 5) (getField w 5 5) (getField w 16 5))
  | 2 => .ok (.eor (getField w 0 5) (getField w 5 5) (getField w 16 5))
  | 3 => .ok (.mul (getField w 0 5) (getField w 5 5) (getField w 16 5))
  | 4 => .ok (.lsl (getField w 0 5) (getField w 5 5) (getField w 16 5))
  | 5 => .ok (.lsr (getField w 0 5) (getField w 5 5) (getField w 16 5))
  | 6 => .ok (.cmp (getField w 5 5) (getField w 16 5))
  | 7 => .ok (.ret (getField w 5 5))
  | _ => .error .unknownFunct

/-- A test for equality with an entry of a list without repetitions asks for the entry's place. -/
theorem getElem_eq_iff_of_nodup {α : Type} {l : List α} (h : l.Nodup) {k j : Nat} {x y : α} (hx : l[k]? = some x)
    (hy : l[j]? = some y) : x = y ↔ k = j := by
  obtain ⟨hk, rfl⟩ := List.getElem?_eq_some_iff.mp hx
  obtain ⟨hj, rfl⟩ := List.getElem?_eq_some_iff.mp hy
  exact h.getElem_inj_iff

theorem decodeBcond_of_cond {c : Config} {w : Word32} (h : c.enc.conds.Nodup) {k : Nat}
    (hw : c.enc.conds[k]? = some (getField w 20 4)) : decodeBcond c w = condMeaning (bcondOffset c.bcond w) k := by
  have hk : k < 4 := (List.getElem?_eq_some_iff.mp hw).1
  have test : ∀ {j : Nat} {cc : BitVec 4}, c.enc.conds[j]? = some cc → (getField w 20 4 = cc ↔ k = j) :=
    fun hj => getElem_eq_iff_of_nodup h hw hj
  simp only [decodeBcond, test (j := 0) rfl, test (j := 1) rfl, test (j := 2) rfl, test (j := 3) rfl]
  interval_cases k <;> rfl

theorem decodeX_of_funct {e : Enc} {w : Word32} (h : e.functs.Nodup) {k : Nat}
    (hw : e.functs[k]? = some (getField w 10 6)) : decodeX e w = functMeaning w k := by
  have hk : k < 8 := (List.getElem?_eq_some_iff.mp hw).1
  have test : ∀ {j : Nat} {fn : BitVec 6}, e.functs[j]? = some fn → (getField w 10 6 = fn ↔ k = j) :=
    fun hj => getElem_eq_iff_of_nodup h hw hj
  simp only [decodeX, test (j := 0) rfl, test (j := 1) rfl, test (j := 2) rfl, test (j := 3) rfl, test (j := 4) rfl,
    test (j := 5) rfl, test (j := 6) rfl, test (j := 7) rfl]
  interval_cases k <;> rfl

/-- What a conditional branch's word decodes to, by its condition's place in `Enc.conds`. -/
theorem decodeWith_of_cond {c : Config} {w : Word32} (h : c.enc.WF) {k : Nat} {cc : BitVec 4}
    (hop : getField w 24 8 = c.enc.opcBcond) (hk : c.enc.conds[k]? = some cc) (hcc : getField w 20 4 = cc) :
    decodeWith c w = condMeaning (bcondOffset c.bcond w) k := by
  rw [decodeWith_of_opcBcond h hop, decodeBcond_of_cond h.conds_nodup (hcc ▸ hk)]

/-- What a word of the X format decodes to, by its funct code's place in `Enc.functs`. -/
theorem decodeWith_of_funct {c : Config} {w : Word32} (h : c.enc.WF) {k : Nat} {fn : BitVec 6}
    (hop : getField w 21 11 = c.enc.opcX) (hk : c.enc.functs[k]? = some fn) (hfn : getField w 10 6 = fn) :
    decodeWith c w = functMeaning w k := by
  rw [decodeWith_of_opcX h hop, decodeX_of_funct h.functs_nodup (hfn ▸ hk)]

/-! ## The offset of a conditional branch (30_encoding R86) -/

/-- The condition and the low 15 bits of the offset, side by side, are what `Full19` reads. -/
theorem cond_append_low15 (w : Word32) : getField w 20 4 ++ getField w 5 15 = getField w 5 19 :=
  BitVec.extractLsb'_append_extractLsb'_eq_extractLsb' rfl

theorem setWidth_signExtend_low15 (v : BitVec 15) : (v.signExtend 19).setWidth 15 = v := by
  ext k hk
  have hwide : k < 19 := by omega
  rw [BitVec.getElem_setWidth, BitVec.getLsbD_signExtend]
  simp [hk, hwide]

/-- Both readings keep the 15 bits that the encoder writes. -/
theorem setWidth_bcondOffset (m : BcondOffset) (w : Word32) : (bcondOffset m w).setWidth 15 = getField w 5 15 := by
  cases m with
  | low15 => exact setWidth_signExtend_low15 _
  | full19 =>
    rw [bcondOffset, ← cond_append_low15]
    exact BitVec.setWidth_append_eq_right

/-- Whatever offset a word holds can be encoded beside the word's condition. -/
theorem admits_bcondOffset (m : BcondOffset) (w : Word32) : m.Admits (getField w 20 4) (bcondOffset m w) = true := by
  cases m with
  | low15 =>
    rw [BcondOffset.Admits, setWidth_bcondOffset]
    exact beq_self_eq_true _
  | full19 =>
    rw [BcondOffset.Admits, bcondOffset, ← cond_append_low15, beq_iff_eq]
    exact BitVec.extractLsb'_append_eq_left

/-- An offset that can be encoded beside its condition is the one that its word holds. -/
theorem bcondOffset_of_admits {m : BcondOffset} {w : Word32} {off : BitVec 19}
    (h : m.Admits (getField w 20 4) off = true) (hoff : getField w 5 15 = off.setWidth 15) : bcondOffset m w = off := by
  cases m with
  | low15 =>
    rw [BcondOffset.Admits, beq_iff_eq] at h
    rw [bcondOffset, hoff, ← h]
  | full19 =>
    rw [BcondOffset.Admits, beq_iff_eq] at h
    rw [bcondOffset, ← cond_append_low15, hoff, ← h]
    calc _ = off.extractLsb' 15 4 ++ off.extractLsb' 0 15 := by rw [BitVec.setWidth_eq_extractLsb' (by decide)]
      _ = off.extractLsb' 0 19 := BitVec.extractLsb'_append_extractLsb'_eq_extractLsb' rfl
      _ = off := getField_whole off

/-! ## Encoding a decoded word -/

/-- A mask of `n` ones at `lo` reads the field there. -/
theorem getField_of_masked {w m v : Word32} {lo n : Nat} (h : w &&& m = v) (hm : getField m lo n = BitVec.allOnes n) :
    getField w lo n = getField v lo n := by
  calc getField w lo n = getField w lo n &&& getField m lo n := by rw [hm, BitVec.and_allOnes]
    _ = getField (w &&& m) lo n := BitVec.extractLsb'_and.symm
    _ = getField v lo n := by rw [h]

/-- Words that differ only in the bits of `m` have the same fields outside of `m`. -/
theorem getField_eq_of_masked_eq {w u m : Word32} (h : w &&& ~~~m = u &&& ~~~m) {lo n : Nat}
    (hm : getField (~~~m) lo n = BitVec.allOnes n) : getField w lo n = getField u lo n :=
  (getField_of_masked h hm).trans (getField_of_masked rfl hm).symm

theorem branch_of_fields (w : Word32) : getField w 26 6 ++ getField w 0 26 = w := by
  simp (disch := decide) only [getField, BitVec.extractLsb'_append_extractLsb'_eq_extractLsb']
  exact getField_whole w

theorem compareBranch_of_fields (w : Word32) : getField w 24 8 ++ getField w 5 19 ++ getField w 0 5 = w := by
  simp (disch := decide) only [getField, BitVec.extractLsb'_append_extractLsb'_eq_extractLsb']
  exact getField_whole w

theorem condBranch_of_fields (w : Word32) :
    getField w 24 8 ++ getField w 20 4 ++ getField w 5 15 ++ getField w 0 5 = w := by
  simp (disch := decide) only [getField, BitVec.extractLsb'_append_extractLsb'_eq_extractLsb']
  exact getField_whole w

theorem immediate_of_fields (w : Word32) :
    getField w 22 10 ++ getField w 10 12 ++ getField w 5 5 ++ getField w 0 5 = w := by
  simp (disch := decide) only [getField, BitVec.extractLsb'_append_extractLsb'_eq_extractLsb']
  exact getField_whole w

theorem register_of_fields (w : Word32) :
    getField w 21 11 ++ getField w 16 5 ++ getField w 10 6 ++ getField w 5 5 ++ getField w 0 5 = w := by
  simp (disch := decide) only [getField, BitVec.extractLsb'_append_extractLsb'_eq_extractLsb']
  exact getField_whole w

theorem memory_of_fields (w : Word32) :
    getField w 21 11 ++ getField w 12 9 ++ getField w 10 2 ++ getField w 5 5 ++ getField w 0 5 = w := by
  simp (disch := decide) only [getField, BitVec.extractLsb'_append_extractLsb'_eq_extractLsb']
  exact getField_whole w

section
variable {w m f : Word32} {lo n : Nat}

theorem getField_fill :
    getField (w &&& ~~~m ||| f) lo n = getField w lo n &&& getField (~~~m) lo n ||| getField f lo n := by
  rw [getField, BitVec.extractLsb'_or, BitVec.extractLsb'_and]

/-- Filling the bits of `m` leaves the fields outside of `m`. -/
theorem getField_kept (hm : getField (~~~m) lo n = BitVec.allOnes n) (hf : getField f lo n = 0#n) :
    getField (w &&& ~~~m ||| f) lo n = getField w lo n := by
  rw [getField_fill, hm, hf, BitVec.and_allOnes, BitVec.or_zero]

/-- Filling the bits of `m` fills the fields inside of `m`. -/
theorem getField_filled (hm : getField (~~~m) lo n = 0#n) :
    getField (w &&& ~~~m ||| f) lo n = getField f lo n := by
  rw [getField_fill, hm, BitVec.and_zero, BitVec.zero_or]

end

/-- Filling the bits of `m` with some of them leaves the bits outside of `m`. -/
theorem masked_fill (w : Word32) {m f : Word32} (h : f &&& ~~~m = 0#32) :
    (w &&& ~~~m ||| f) &&& ~~~m = w &&& ~~~m := by
  rw [BitVec.and_or_distrib_right, h, BitVec.or_zero, BitVec.and_assoc, BitVec.and_self]

/-- The encoder fills no bit but the ignored ones (30_encoding R114). -/
theorem ignoredFill_ignored (i : Instr) : ignoredFill i &&& ~~~ignoredBits i = 0#32 := by
  cases i with
  | bEq | bNe | bGe | bLt | cmp => exact BitVec.and_not_self 0x1F#32
  | b | bl | cbz | cbnz | addi | subi | add | sub | ldur | stur | and | orr | eor | mul | lsl | lsr | ret | nop
  | halt =>
    exact BitVec.zero_and

/-- A word with no ignored bits is canonical. -/
theorem canonical_self (w : Word32) : w &&& ~~~0#32 ||| 0#32 = w := by
  rw [BitVec.or_zero, BitVec.not_zero, BitVec.and_allOnes]

theorem register_canonical (w : Word32) :
    getField w 21 11 ++ getField w 16 5 ++ 0#6 ++ getField w 5 5 ++ getField w 0 5 = w &&& ~~~0xFC00 ||| 0 := by
  rw [← register_of_fields (w &&& ~~~0xFC00 ||| 0)]
  simp (disch := decide) only [getField_kept, getField_filled]
  rfl

theorem memory_canonical (w : Word32) :
    getField w 21 11 ++ getField w 12 9 ++ 0#2 ++ getField w 5 5 ++ getField w 0 5 = w &&& ~~~0xC00 ||| 0 := by
  rw [← memory_of_fields (w &&& ~~~0xC00 ||| 0)]
  simp (disch := decide) only [getField_kept, getField_filled]
  rfl

theorem condBranch_canonical (w : Word32) :
    getField w 24 8 ++ getField w 20 4 ++ getField w 5 15 ++ 31#5 = w &&& ~~~0x1F ||| 0x1F := by
  rw [← condBranch_of_fields (w &&& ~~~0x1F ||| 0x1F)]
  simp (disch := decide) only [getField_kept, getField_filled]
  rfl

theorem compare_canonical (w : Word32) :
    getField w 21 11 ++ getField w 16 5 ++ getField w 10 6 ++ getField w 5 5 ++ 31#5 = w &&& ~~~0x1F ||| 0x1F := by
  rw [← register_of_fields (w &&& ~~~0x1F ||| 0x1F)]
  simp (disch := decide) only [getField_kept, getField_filled]
  rfl

theorem ret_canonical (w : Word32) :
    getField w 21 11 ++ 0#5 ++ getField w 10 6 ++ getField w 5 5 ++ 0#5 = w &&& ~~~0x1F001F ||| 0 := by
  rw [← register_of_fields (w &&& ~~~0x1F001F ||| 0)]
  simp (disch := decide) only [getField_kept, getField_filled]
  rfl

/-- The word that the encoder writes for a conditional branch decoded from `w`. -/
theorem encodeBcond_of_fields {c : Config} {w : Word32} {cc : BitVec 4} (hop : getField w 24 8 = c.enc.opcBcond)
    (hcc : getField w 20 4 = cc) :
    c.bcond.Admits cc (bcondOffset c.bcond w) = true ∧
      encodeBcond c.enc cc (bcondOffset c.bcond w) = w &&& ~~~0x1F ||| 0x1F := by
  subst hcc
  refine ⟨admits_bcondOffset c.bcond w, ?_⟩
  rw [encodeBcond, setWidth_bcondOffset, ← hop]
  exact condBranch_canonical w

/-- Settles O12: the decoder's fields, put together again with the encoder's fill between them. -/
theorem encodeOfDecodeIsCanonical : Obligations.EncodeOfDecodeIsCanonical := by
  intro c w i h
  rcases decodeWith_cases h with ⟨rfl, rfl⟩ | ⟨rfl, rfl⟩ | ⟨hop, rfl⟩ | ⟨hop, rfl⟩ | ⟨hop, rfl⟩ | ⟨hop, rfl⟩ |
    ⟨hop, hcond⟩ | ⟨hop, rfl⟩ | ⟨hop, rfl⟩ | ⟨hop, rfl⟩ | ⟨hop, rfl⟩ | ⟨hop, rfl⟩ | ⟨hop, rfl⟩ | ⟨hop, hfunct⟩
  · exact ⟨rfl, (canonical_self _).symm⟩
  · exact ⟨rfl, (canonical_self _).symm⟩
  · exact ⟨rfl, by rw [encodeWith, ← hop]; exact (branch_of_fields w).trans (canonical_self w).symm⟩
  · exact ⟨rfl, by rw [encodeWith, ← hop]; exact (branch_of_fields w).trans (canonical_self w).symm⟩
  · exact ⟨rfl, by rw [encodeWith, ← hop]; exact (compareBranch_of_fields w).trans (canonical_self w).symm⟩
  · exact ⟨rfl, by rw [encodeWith, ← hop]; exact (compareBranch_of_fields w).trans (canonical_self w).symm⟩
  · rcases decodeBcond_cases hcond with ⟨hcc, rfl⟩ | ⟨hcc, rfl⟩ | ⟨hcc, rfl⟩ | ⟨hcc, rfl⟩
    · exact encodeBcond_of_fields hop hcc
    · exact encodeBcond_of_fields hop hcc
    · exact encodeBcond_of_fields hop hcc
    · exact encodeBcond_of_fields hop hcc
  · exact ⟨rfl, by rw [encodeWith, ← hop]; exact (immediate_of_fields w).trans (canonical_self w).symm⟩
  · exact ⟨rfl, by rw [encodeWith, ← hop]; exact (immediate_of_fields w).trans (canonical_self w).symm⟩
  · exact ⟨rfl, by rw [encodeWith, ← hop]; exact register_canonical w⟩
  · exact ⟨rfl, by rw [encodeWith, ← hop]; exact register_canonical w⟩
  · exact ⟨rfl, by rw [encodeWith, ← hop]; exact memory_canonical w⟩
  · exact ⟨rfl, by rw [encodeWith, ← hop]; exact memory_canonical w⟩
  · have hsame : encodeX c.enc (getField w 16 5) (getField w 10 6) (getField w 5 5) (getField w 0 5) =
        w &&& ~~~0#32 ||| 0#32 := by
      rw [encodeX, ← hop]
      exact (register_of_fields w).trans (canonical_self w).symm
    rcases decodeX_cases hfunct with ⟨hfn, rfl⟩ | ⟨hfn, rfl⟩ | ⟨hfn, rfl⟩ | ⟨hfn, rfl⟩ | ⟨hfn, rfl⟩ | ⟨hfn, rfl⟩ |
      ⟨hfn, rfl⟩ | ⟨hfn, rfl⟩
    · exact ⟨rfl, by rw [encodeWith, ← hfn]; exact hsame⟩
    · exact ⟨rfl, by rw [encodeWith, ← hfn]; exact hsame⟩
    · exact ⟨rfl, by rw [encodeWith, ← hfn]; exact hsame⟩
    · exact ⟨rfl, by rw [encodeWith, ← hfn]; exact hsame⟩
    · exact ⟨rfl, by rw [encodeWith, ← hfn]; exact hsame⟩
    · exact ⟨rfl, by rw [encodeWith, ← hfn]; exact hsame⟩
    · exact ⟨rfl, by rw [encodeWith, encodeX, ← hop, ← hfn]; exact compare_canonical w⟩
    · exact ⟨rfl, by rw [encodeWith, encodeX, ← hop, ← hfn]; exact ret_canonical w⟩

/-! ## The fields of an encoded instruction (30_encoding R72 to R78) -/

theorem eq_of_masked_zero_eq {w u : Word32} (h : w &&& ~~~0#32 = u &&& ~~~0#32) : w = u := by
  simpa only [BitVec.not_zero, BitVec.and_allOnes] using h

theorem branch_fields {w : Word32} {op : BitVec 6} {off : BitVec 26} (h : w = op ++ off) :
    getField w 26 6 = op ∧ getField w 0 26 = off := by
  subst h
  exact ⟨BitVec.extractLsb'_append_eq_left, BitVec.extractLsb'_append_eq_right⟩

theorem compareBranch_fields {w : Word32} {op : BitVec 8} {off : BitVec 19} {rt : RegIdx} (h : w = op ++ off ++ rt) :
    getField w 24 8 = op ∧ getField w 5 19 = off ∧ getField w 0 5 = rt := by
  subst h
  change (op ++ off ++ rt).extractLsb' 24 8 = op ∧ (op ++ off ++ rt).extractLsb' 5 19 = off ∧
    (op ++ off ++ rt).extractLsb' 0 5 = rt
  simp (disch := decide) only [getField_append_high, getField_append_low, Nat.reduceSub, getField_whole, and_self]

theorem condBranch_fields {w : Word32} {op : BitVec 8} {cc : BitVec 4} {off : BitVec 15} {rt : BitVec 5}
    (h : w = op ++ cc ++ off ++ rt) : getField w 24 8 = op ∧ getField w 20 4 = cc ∧ getField w 5 15 = off := by
  subst h
  change (op ++ cc ++ off ++ rt).extractLsb' 24 8 = op ∧ (op ++ cc ++ off ++ rt).extractLsb' 20 4 = cc ∧
    (op ++ cc ++ off ++ rt).extractLsb' 5 15 = off
  simp (disch := decide) only [getField_append_high, getField_append_low, Nat.reduceSub, getField_whole, and_self]

theorem immediate_fields {w : Word32} {op : BitVec 10} {imm : BitVec 12} {rn rd : RegIdx}
    (h : w = op ++ imm ++ rn ++ rd) :
    getField w 22 10 = op ∧ getField w 10 12 = imm ∧ getField w 5 5 = rn ∧ getField w 0 5 = rd := by
  subst h
  change (op ++ imm ++ rn ++ rd).extractLsb' 22 10 = op ∧ (op ++ imm ++ rn ++ rd).extractLsb' 10 12 = imm ∧
    (op ++ imm ++ rn ++ rd).extractLsb' 5 5 = rn ∧ (op ++ imm ++ rn ++ rd).extractLsb' 0 5 = rd
  simp (disch := decide) only [getField_append_high, getField_append_low, Nat.reduceSub, getField_whole, and_self]

theorem register_fields {w : Word32} {op : BitVec 11} {rm : BitVec 5} {fn : BitVec 6} {rn rd : RegIdx}
    (h : w = op ++ rm ++ fn ++ rn ++ rd) :
    getField w 21 11 = op ∧ getField w 16 5 = rm ∧ getField w 10 6 = fn ∧ getField w 5 5 = rn ∧
      getField w 0 5 = rd := by
  subst h
  change (op ++ rm ++ fn ++ rn ++ rd).extractLsb' 21 11 = op ∧ (op ++ rm ++ fn ++ rn ++ rd).extractLsb' 16 5 = rm ∧
    (op ++ rm ++ fn ++ rn ++ rd).extractLsb' 10 6 = fn ∧ (op ++ rm ++ fn ++ rn ++ rd).extractLsb' 5 5 = rn ∧
    (op ++ rm ++ fn ++ rn ++ rd).extractLsb' 0 5 = rd
  simp (disch := decide) only [getField_append_high, getField_append_low, Nat.reduceSub, getField_whole, and_self]

theorem memory_fields {w : Word32} {op : BitVec 11} {off : BitVec 9} {z : BitVec 2} {rn rt : RegIdx}
    (h : w = op ++ off ++ z ++ rn ++ rt) :
    getField w 21 11 = op ∧ getField w 12 9 = off ∧ getField w 5 5 = rn ∧ getField w 0 5 = rt := by
  subst h
  change (op ++ off ++ z ++ rn ++ rt).extractLsb' 21 11 = op ∧ (op ++ off ++ z ++ rn ++ rt).extractLsb' 12 9 = off ∧
    (op ++ off ++ z ++ rn ++ rt).extractLsb' 5 5 = rn ∧ (op ++ off ++ z ++ rn ++ rt).extractLsb' 0 5 = rt
  simp (disch := decide) only [getField_append_high, getField_append_low, Nat.reduceSub, getField_whole, and_self]

/-! ## Decoding an encoded instruction

A word that agrees with the encoder's outside of the ignored bits has the encoder's fields there. -/

theorem condBranch_fields_of_masked {c : Config} {w : Word32} {cc : BitVec 4} {off : BitVec 19}
    (h : w &&& ~~~0x1F = encodeBcond c.enc cc off &&& ~~~0x1F) (hoff : c.bcond.Admits cc off = true) :
    getField w 24 8 = c.enc.opcBcond ∧ getField w 20 4 = cc ∧ bcondOffset c.bcond w = off := by
  obtain ⟨hop, hcc, hlow⟩ := condBranch_fields (rfl : encodeBcond c.enc cc off = _)
  rw [← getField_eq_of_masked_eq h rfl] at hop hcc hlow
  subst hcc
  exact ⟨hop, rfl, bcondOffset_of_admits hoff hlow⟩

theorem register_fields_of_masked {w : Word32} {op : BitVec 11} {rm rn rd : RegIdx}
    (h : w &&& ~~~0xFC00 = (op ++ rm ++ 0#6 ++ rn ++ rd) &&& ~~~0xFC00) :
    getField w 21 11 = op ∧ getField w 16 5 = rm ∧ getField w 5 5 = rn ∧ getField w 0 5 = rd := by
  obtain ⟨hop, hrm, -, hrn, hrd⟩ := register_fields (w := op ++ rm ++ 0#6 ++ rn ++ rd) rfl
  rw [← getField_eq_of_masked_eq h rfl] at hop hrm hrn hrd
  exact ⟨hop, hrm, hrn, hrd⟩

theorem memory_fields_of_masked {w : Word32} {op : BitVec 11} {off : BitVec 9} {rn rt : RegIdx}
    (h : w &&& ~~~0xC00 = (op ++ off ++ 0#2 ++ rn ++ rt) &&& ~~~0xC00) :
    getField w 21 11 = op ∧ getField w 12 9 = off ∧ getField w 5 5 = rn ∧ getField w 0 5 = rt := by
  obtain ⟨hop, hoff, hrn, hrt⟩ := memory_fields (w := op ++ off ++ 0#2 ++ rn ++ rt) rfl
  rw [← getField_eq_of_masked_eq h rfl] at hop hoff hrn hrt
  exact ⟨hop, hoff, hrn, hrt⟩

theorem compare_fields_of_masked {e : Enc} {w : Word32} {rm rn : RegIdx}
    (h : w &&& ~~~0x1F = encodeX e rm e.fnCmp rn 31#5 &&& ~~~0x1F) :
    getField w 21 11 = e.opcX ∧ getField w 16 5 = rm ∧ getField w 10 6 = e.fnCmp ∧ getField w 5 5 = rn := by
  obtain ⟨hop, hrm, hfn, hrn, -⟩ := register_fields (rfl : encodeX e rm e.fnCmp rn 31#5 = _)
  rw [← getField_eq_of_masked_eq h rfl] at hop hrm hfn hrn
  exact ⟨hop, hrm, hfn, hrn⟩

theorem ret_fields_of_masked {e : Enc} {w : Word32} {rn : RegIdx}
    (h : w &&& ~~~0x1F001F = encodeX e 0#5 e.fnRet rn 0#5 &&& ~~~0x1F001F) :
    getField w 21 11 = e.opcX ∧ getField w 10 6 = e.fnRet ∧ getField w 5 5 = rn := by
  obtain ⟨hop, -, hfn, hrn, -⟩ := register_fields (rfl : encodeX e 0#5 e.fnRet rn 0#5 = _)
  rw [← getField_eq_of_masked_eq h rfl] at hop hfn hrn
  exact ⟨hop, hfn, hrn⟩

/-- A word that agrees with the encoder's outside of the ignored bits decodes to the instruction encoded. -/
theorem decodeWith_of_masked_eq {c : Config} {w : Word32} {i : Instr} (h : c.enc.WF) (hi : i.WF c = true)
    (hw : w &&& ~~~ignoredBits i = encodeWith c.enc i &&& ~~~ignoredBits i) : decodeWith c w = .ok i := by
  cases i with
  | b off =>
    obtain ⟨hop, hoff⟩ := branch_fields (eq_of_masked_zero_eq hw)
    rw [decodeWith_of_opcB h hop, hoff]
  | bl off =>
    obtain ⟨hop, hoff⟩ := branch_fields (eq_of_masked_zero_eq hw)
    rw [decodeWith_of_opcBl h hop, hoff]
  | cbz rt off =>
    obtain ⟨hop, hoff, hrt⟩ := compareBranch_fields (eq_of_masked_zero_eq hw)
    rw [decodeWith_of_opcCbz h hop, hoff, hrt]
  | cbnz rt off =>
    obtain ⟨hop, hoff, hrt⟩ := compareBranch_fields (eq_of_masked_zero_eq hw)
    rw [decodeWith_of_opcCbnz h hop, hoff, hrt]
  | bEq off =>
    obtain ⟨hop, hcc, hoff⟩ := condBranch_fields_of_masked hw hi
    rw [decodeWith_of_cond h (k := 0) hop rfl hcc, hoff, condMeaning]
  | bNe off =>
    obtain ⟨hop, hcc, hoff⟩ := condBranch_fields_of_masked hw hi
    rw [decodeWith_of_cond h (k := 1) hop rfl hcc, hoff, condMeaning]
  | bLt off =>
    obtain ⟨hop, hcc, hoff⟩ := condBranch_fields_of_masked hw hi
    rw [decodeWith_of_cond h (k := 2) hop rfl hcc, hoff, condMeaning]
  | bGe off =>
    obtain ⟨hop, hcc, hoff⟩ := condBranch_fields_of_masked hw hi
    rw [decodeWith_of_cond h (k := 3) hop rfl hcc, hoff, condMeaning]
  | addi rd rn imm =>
    obtain ⟨hop, himm, hrn, hrd⟩ := immediate_fields (eq_of_masked_zero_eq hw)
    rw [decodeWith_of_opcAddi h hop, himm, hrn, hrd]
  | subi rd rn imm =>
    obtain ⟨hop, himm, hrn, hrd⟩ := immediate_fields (eq_of_masked_zero_eq hw)
    rw [decodeWith_of_opcSubi h hop, himm, hrn, hrd]
  | add rd rn rm =>
    obtain ⟨hop, hrm, hrn, hrd⟩ := register_fields_of_masked hw
    rw [decodeWith_of_opcAdd h hop, hrm, hrn, hrd]
  | sub rd rn rm =>
    obtain ⟨hop, hrm, hrn, hrd⟩ := register_fields_of_masked hw
    rw [decodeWith_of_opcSub h hop, hrm, hrn, hrd]
  | ldur rt rn off =>
    obtain ⟨hop, hoff, hrn, hrt⟩ := memory_fields_of_masked hw
    rw [decodeWith_of_opcLdur h hop, hoff, hrn, hrt]
  | stur rt rn off =>
    obtain ⟨hop, hoff, hrn, hrt⟩ := memory_fields_of_masked hw
    rw [decodeWith_of_opcStur h hop, hoff, hrn, hrt]
  | and rd rn rm =>
    obtain ⟨hop, hrm, hfn, hrn, hrd⟩ := register_fields (eq_of_masked_zero_eq hw)
    rw [decodeWith_of_funct h (k := 0) hop rfl hfn, functMeaning, hrm, hrn, hrd]
  | orr rd rn rm =>
    obtain ⟨hop, hrm, hfn, hrn, hrd⟩ := register_fields (eq_of_masked_zero_eq hw)
    rw [decodeWith_of_funct h (k := 1) hop rfl hfn, functMeaning, hrm, hrn, hrd]
  | eor rd rn rm =>
    obtain ⟨hop, hrm, hfn, hrn, hrd⟩ := register_fields (eq_of_masked_zero_eq hw)
    rw [decodeWith_of_funct h (k := 2) hop rfl hfn, functMeaning, hrm, hrn, hrd]
  | mul rd rn rm =>
    obtain ⟨hop, hrm, hfn, hrn, hrd⟩ := register_fields (eq_of_masked_zero_eq hw)
    rw [decodeWith_of_funct h (k := 3) hop rfl hfn, functMeaning, hrm, hrn, hrd]
  | lsl rd rn sh =>
    obtain ⟨hop, hsh, hfn, hrn, hrd⟩ := register_fields (eq_of_masked_zero_eq hw)
    rw [decodeWith_of_funct h (k := 4) hop rfl hfn, functMeaning, hsh, hrn, hrd]
  | lsr rd rn sh =>
    obtain ⟨hop, hsh, hfn, hrn, hrd⟩ := register_fields (eq_of_masked_zero_eq hw)
    rw [decodeWith_of_funct h (k := 5) hop rfl hfn, functMeaning, hsh, hrn, hrd]
  | cmp rn rm =>
    obtain ⟨hop, hrm, hfn, hrn⟩ := compare_fields_of_masked hw
    rw [decodeWith_of_funct h (k := 6) hop rfl hfn, functMeaning, hrm, hrn]
  | ret rn =>
    obtain ⟨hop, hfn, hrn⟩ := ret_fields_of_masked hw
    rw [decodeWith_of_funct h (k := 7) hop rfl hfn, functMeaning, hrn]
  | nop =>
    obtain rfl : w = c.enc.nopWord := eq_of_masked_zero_eq hw
    rw [decodeWith, if_neg h.nopWord_ne_haltWord, if_pos rfl]
  | halt =>
    obtain rfl : w = haltWord := eq_of_masked_zero_eq hw
    rw [decodeWith, if_pos rfl]

/-- Settles O11: the encoder's word agrees with itself. -/
theorem decodeOfEncode : Obligations.DecodeOfEncode := by
  intro c i h hi
  exact decodeWith_of_masked_eq h hi rfl

/-- Settles O13: both words agree with the canonical word outside of the ignored bits. -/
theorem ignoredBitsDoNotMatter : Obligations.IgnoredBitsDoNotMatter := by
  intro c w w' i h hw hw'
  obtain ⟨hi, henc⟩ := encodeOfDecodeIsCanonical c w i hw
  refine decodeWith_of_masked_eq h hi ?_
  rw [hw', henc, masked_fill w (ignoredFill_ignored i)]

/-! ## Exclusive patterns, illegal words and the default table -/

/-- Settles O14, by conditions (a) and (d) of R81. -/
theorem opcodePatternsAreExclusive : Obligations.OpcodePatternsAreExclusive := by
  intro e w p q h hp hq hpw hqw
  exact ⟨h.only_match hp hq hpw hqw, h.not_sentinel hp hpw⟩

/-- A word that carries no opcode pattern is a sentinel or `Illegal` (30_encoding R84). -/
theorem decodeWith_of_no_match {c : Config} {w : Word32} (h : ∀ p ∈ c.enc.patterns, ¬ p.Matches w) :
    decodeWith c w = if w = haltWord then .ok .halt else if w = c.enc.nopWord then .ok .nop else .error .noOpcode := by
  simp only [Enc.patterns, List.forall_mem_cons, matches_iff_getField (n := 6) (lo := 26) rfl,
    matches_iff_getField (n := 8) (lo := 24) rfl, matches_iff_getField (n := 10) (lo := 22) rfl,
    matches_iff_getField (n := 11) (lo := 21) rfl] at h
  simp only [decodeWith, h, if_false]

theorem decodeBcond_rejects_iff {c : Config} {w : Word32} :
    (∃ r, decodeBcond c w = .error r) ↔ getField w 20 4 ∉ c.enc.conds := by
  simp only [decodeBcond]
  split_ifs <;> simp_all [Enc.conds]

theorem decodeX_rejects_iff {e : Enc} {w : Word32} :
    (∃ r, decodeX e w = .error r) ↔ getField w 10 6 ∉ e.functs := by
  simp only [decodeX]
  split_ifs <;> simp_all [Enc.functs]

/-- Which words with the opcode pattern at place `j` are `Illegal` (30_encoding R85). -/
theorem opcodeMeaning_rejects_iff {c : Config} {w : Word32} {j : Nat} (hj : j < 12) :
    (∃ r, opcodeMeaning c w j = .error r) ↔
      (j = 4 ∧ getField w 20 4 ∉ c.enc.conds) ∨ (j = 11 ∧ getField w 10 6 ∉ c.enc.functs) := by
  rw [← decodeBcond_rejects_iff, ← decodeX_rejects_iff]
  interval_cases j <;> simp [opcodeMeaning]

/-- Settles O15, by whether a pattern matches and which one; the five examples are decoded. -/
theorem illegalWords : Obligations.IllegalWords := by
  refine ⟨fun c w h => ?_, ?_⟩
  · by_cases hmatch : ∀ p ∈ c.enc.patterns, ¬ p.Matches w
    · rw [decodeWith_of_no_match hmatch]
      by_cases hhalt : w = haltWord
      · simp [hhalt]
      · by_cases hnop : w = c.enc.nopWord
        · rw [if_neg hhalt, if_pos hnop]
          simp [hnop]
        · rw [if_neg hhalt, if_neg hnop]
          exact iff_of_true ⟨_, rfl⟩ ⟨hhalt, hnop, .inl hmatch⟩
    · obtain ⟨p, hp, hpw⟩ : ∃ p ∈ c.enc.patterns, p.Matches w := by simpa using hmatch
      obtain ⟨j, hj, rfl⟩ := List.getElem_of_mem hp
      obtain ⟨hhalt, hnop, htests⟩ := h.tests hj hpw
      rw [decodeWith_of_matches h hj hpw, opcodeMeaning_rejects_iff hj]
      simp [hhalt, hnop, hmatch, htests]
  · intro w hw
    simp only [List.mem_cons, List.not_mem_nil, or_false] at hw
    rcases hw with rfl | rfl | rfl | rfl | rfl
    · exact ⟨.noOpcode, by decide⟩
    · exact ⟨.noOpcode, by decide⟩
    · exact ⟨.noOpcode, by decide⟩
    · exact ⟨.unknownCond, by decide⟩
    · exact ⟨.unknownFunct, by decide⟩

/-- Settles O9: each row's mask covers its opcode, and its condition or funct code, which select the decoding rule. -/
theorem defaultOpcodeTableDecodes : Obligations.DefaultOpcodeTableDecodes := by
  have hwf : defaultConfig.enc.WF := by decide
  refine ⟨hwf, fun w => ⟨
    fun h => decodeWith_of_opcB hwf (getField_of_masked h rfl),
    fun h => decodeWith_of_opcBl hwf (getField_of_masked h rfl),
    fun h => decodeWith_of_opcCbz hwf (getField_of_masked h rfl),
    fun h => decodeWith_of_opcCbnz hwf (getField_of_masked h rfl),
    fun h => decodeWith_of_cond hwf (k := 0) (getField_of_masked h rfl) rfl (getField_of_masked h rfl),
    fun h => decodeWith_of_cond hwf (k := 1) (getField_of_masked h rfl) rfl (getField_of_masked h rfl),
    fun h => decodeWith_of_cond hwf (k := 3) (getField_of_masked h rfl) rfl (getField_of_masked h rfl),
    fun h => decodeWith_of_cond hwf (k := 2) (getField_of_masked h rfl) rfl (getField_of_masked h rfl),
    fun h => decodeWith_of_opcAddi hwf (getField_of_masked h rfl),
    fun h => decodeWith_of_opcSubi hwf (getField_of_masked h rfl),
    fun h => decodeWith_of_opcAdd hwf (getField_of_masked h rfl),
    fun h => decodeWith_of_opcSub hwf (getField_of_masked h rfl),
    fun h => decodeWith_of_opcLdur hwf (getField_of_masked h rfl),
    fun h => decodeWith_of_opcStur hwf (getField_of_masked h rfl),
    fun h => decodeWith_of_funct hwf (k := 0) (getField_of_masked h rfl) rfl (getField_of_masked h rfl),
    fun h => decodeWith_of_funct hwf (k := 1) (getField_of_masked h rfl) rfl (getField_of_masked h rfl),
    fun h => decodeWith_of_funct hwf (k := 2) (getField_of_masked h rfl) rfl (getField_of_masked h rfl),
    fun h => decodeWith_of_funct hwf (k := 3) (getField_of_masked h rfl) rfl (getField_of_masked h rfl),
    fun h => decodeWith_of_funct hwf (k := 4) (getField_of_masked h rfl) rfl (getField_of_masked h rfl),
    fun h => decodeWith_of_funct hwf (k := 5) (getField_of_masked h rfl) rfl (getField_of_masked h rfl),
    fun h => decodeWith_of_funct hwf (k := 6) (getField_of_masked h rfl) rfl (getField_of_masked h rfl),
    fun h => decodeWith_of_funct hwf (k := 7) (getField_of_masked h rfl) rfl (getField_of_masked h rfl),
    fun h => ?_,
    fun h => ?_⟩⟩
  · obtain rfl : w = defaultEnc.nopWord := BitVec.and_allOnes.symm.trans h
    decide
  · obtain rfl : w = haltWord := BitVec.and_allOnes.symm.trans h
    decide

end Sys2Proof

/-! The assembler and the disassembler (30_encoding section 7): rendered instructions read back, the ranges of
immediates, and lines that hold no instruction. Last, that no step is refused. -/

namespace Sys2Proof.Machine

/-! ## What each operand shape makes of rendered tokens (30_encoding R104 to R107) -/

/-- The base register's token written is the register read. -/
theorem parseBase_renderReg (st : Style) (r : RegIdx) : parseBase ('[' :: renderReg st r) = .ok r :=
  parseReg_renderReg st r

section
variable (st : Style) (c : Config) (r1 r2 r3 : RegIdx) (v : Int)

theorem assembleOperands_branch (mk : BitVec 26 → Instr) :
    assembleOperands c (.branch mk) [renderImm st v] =
      if FitsSigned 26 v then .ok (mk (BitVec.ofInt 26 v)) else .error .rangeError := by
  simp only [assembleOperands, parseImm_renderImm, signedField, bind, Except.bind]
  split_ifs <;> rfl

theorem assembleOperands_compareBranch (mk : RegIdx → BitVec 19 → Instr) :
    assembleOperands c (.compareBranch mk) [renderReg st r1, renderImm st v] =
      if FitsSigned 19 v then .ok (mk r1 (BitVec.ofInt 19 v)) else .error .refused := by
  simp only [assembleOperands, parseReg_renderReg, parseImm_renderImm, signedField, bind, Except.bind]
  split_ifs <;> rfl

theorem assembleOperands_condBranch (mk : BitVec 19 → Instr) :
    assembleOperands c (.condBranch mk) [renderImm st v] =
      if FitsSigned 19 v ∧ (mk (BitVec.ofInt 19 v)).WF c then .ok (mk (BitVec.ofInt 19 v)) else .error .refused := by
  simp only [assembleOperands, parseImm_renderImm, signedField, bind, Except.bind]
  by_cases hfit : FitsSigned 19 v
  · simp only [if_pos hfit]
    exact if_congr (and_iff_right hfit).symm rfl rfl
  · simp only [if_neg hfit]
    exact (if_neg fun h => hfit h.1).symm

theorem assembleOperands_immediate (mk : RegIdx → RegIdx → BitVec 12 → Instr) :
    assembleOperands c (.immediate mk) [renderReg st r1, renderReg st r2, renderImm st v] =
      if 0 ≤ v ∧ v ≤ 4095 then .ok (mk r1 r2 (BitVec.ofInt 12 v)) else .error .rangeError := by
  simp only [assembleOperands, parseReg_renderReg, parseImm_renderImm, bind, Except.bind]

theorem assembleOperands_memory (mk : RegIdx → RegIdx → BitVec 9 → Instr) :
    assembleOperands c (.memory mk) [renderReg st r1, '[' :: renderReg st r2, renderImm st v ++ [']']] =
      if FitsSigned 9 v then .ok (mk r1 r2 (BitVec.ofInt 9 v)) else .error .rangeError := by
  simp only [assembleOperands, parseReg_renderReg, parseBase_renderReg, parseOffset_renderImm, signedField, bind,
    Except.bind]
  split_ifs <;> rfl

theorem assembleOperands_threeReg (mk : RegIdx → RegIdx → RegIdx → Instr) :
    assembleOperands c (.threeReg mk) [renderReg st r1, renderReg st r2, renderReg st r3] = .ok (mk r1 r2 r3) := by
  simp only [assembleOperands, parseReg_renderReg, bind, Except.bind]

theorem assembleOperands_shift (mk : RegIdx → RegIdx → BitVec 5 → Instr) :
    assembleOperands c (.shift mk) [renderReg st r1, renderReg st r2, renderImm st v] =
      if 0 ≤ v ∧ v ≤ 31 then .ok (mk r1 r2 (BitVec.ofInt 5 v))
      else if 32 ≤ v ∧ v ≤ 63 then .error .refused else .error .rangeError := by
  simp only [assembleOperands, parseReg_renderReg, parseImm_renderImm, bind, Except.bind]

theorem assembleOperands_compare :
    assembleOperands c .compare [renderReg st r1, renderReg st r2] = .ok (.cmp r1 r2) := by
  simp only [assembleOperands, parseReg_renderReg, bind, Except.bind]

theorem assembleOperands_ret : assembleOperands c .ret [renderReg st r1] = .ok (.ret r1) := by
  simp only [assembleOperands, parseReg_renderReg, bind, Except.bind]

end

/-! ## The value of a field is in the field's range -/

theorem fitsSigned_toInt {n : Nat} (v : BitVec n) : FitsSigned n v.toInt := ⟨BitVec.le_toInt v, BitVec.toInt_lt⟩

theorem ofInt_toNat {n : Nat} (v : BitVec n) : BitVec.ofInt n v.toNat = v := by
  rw [BitVec.ofInt_natCast, BitVec.ofNat_toNat, BitVec.setWidth_eq]

/-- A rendered instruction's mnemonic has a shape, and the shape makes the instruction of its operand tokens. -/
theorem assembleOperands_operandTokens (st : Style) {c : Config} {i : Instr} (hi : i.WF c = true) :
    ∃ sh, shapeOf (mnemonic i) = some sh ∧ assembleOperands c sh (operandTokens st i) = .ok i := by
  cases i with
  | b off | bl off =>
    refine ⟨_, rfl, ?_⟩
    rw [operandTokens, assembleOperands_branch, if_pos (fitsSigned_toInt off), BitVec.ofInt_toInt]
  | cbz rt off | cbnz rt off =>
    refine ⟨_, rfl, ?_⟩
    rw [operandTokens, assembleOperands_compareBranch, if_pos (fitsSigned_toInt off), BitVec.ofInt_toInt]
  | bEq off | bNe off | bGe off | bLt off =>
    refine ⟨_, rfl, ?_⟩
    rw [operandTokens, assembleOperands_condBranch, BitVec.ofInt_toInt, if_pos ⟨fitsSigned_toInt off, hi⟩]
  | addi rd rn imm | subi rd rn imm =>
    have hrange : (0 : Int) ≤ imm.toNat ∧ (imm.toNat : Int) ≤ 4095 := by omega
    refine ⟨_, rfl, ?_⟩
    rw [operandTokens, assembleOperands_immediate, if_pos hrange, ofInt_toNat]
  | ldur rt rn off | stur rt rn off =>
    refine ⟨_, rfl, ?_⟩
    rw [operandTokens, assembleOperands_memory, if_pos (fitsSigned_toInt off), BitVec.ofInt_toInt]
  | add rd rn rm | sub rd rn rm | and rd rn rm | orr rd rn rm | eor rd rn rm | mul rd rn rm =>
    exact ⟨_, rfl, assembleOperands_threeReg st c rd rn rm _⟩
  | lsl rd rn sh | lsr rd rn sh =>
    have hrange : (0 : Int) ≤ sh.toNat ∧ (sh.toNat : Int) ≤ 31 := by omega
    refine ⟨_, rfl, ?_⟩
    rw [operandTokens, assembleOperands_shift, if_pos hrange, ofInt_toNat]
  | cmp rn rm => exact ⟨_, rfl, assembleOperands_compare st c rn rm⟩
  | ret rn => exact ⟨_, rfl, assembleOperands_ret st c rn⟩
  | nop | halt => exact ⟨_, rfl, rfl⟩

/-! ## The round trips (30_encoding R117) -/

theorem assemble_of_assembleInstr {c : Config} {line : Text} {i : Instr} (h : assembleInstr c line = .ok (some i)) :
    assemble c line = .ok (some (encodeWith c.enc i)) := by
  rw [assemble, h]

/-- All the ways a line can assemble to a word. -/
theorem assemble_eq_some {c : Config} {line : Text} {w : Word32} (h : assemble c line = .ok (some w)) :
    ∃ i, assembleInstr c line = .ok (some i) ∧ encodeWith c.enc i = w := by
  unfold assemble at h
  split at h
  · rename_i i hi
    exact ⟨i, hi, Option.some.inj (Except.ok.inj h)⟩
  · cases h
  · cases h

/-- Settles O51: the rendered line's tokens are the mnemonic and the operand tokens, and these read back. -/
theorem assembleOfRender : Obligations.AssembleOfRender := by
  intro st c i hi
  obtain ⟨sh, hshape, hops⟩ := assembleOperands_operandTokens st hi
  apply assemble_of_assembleInstr
  rw [assembleInstr_of_tokens (tokens_renderInstr st i), assembleTokens, shapeOf_mnemonic, hshape]
  exact congrArg (Except.map some) hops

/-- Every line that assembles holds a well-formed instruction. -/
theorem wf_of_assembleInstr {c : Config} {line : Text} {i : Instr} (h : assembleInstr c line = .ok (some i)) :
    i.WF c = true := by
  obtain ⟨m, ops, sh, -, hshape, hops⟩ := assembleInstr_eq_some h
  exact wf_of_assembleOperands hshape hops

/-- Settles O52: the word decodes to the instruction that the line held (O11), whose text assembles to it (O51). -/
theorem assembleDisassembleAssemble : Obligations.AssembleDisassembleAssemble := by
  intro st c line w hc h
  obtain ⟨i, hline, rfl⟩ := assemble_eq_some h
  have hi := wf_of_assembleInstr hline
  rw [disassemble, decodeOfEncode c i hc hi]
  exact assembleOfRender st c i hi

/-! ## Ranges (30_encoding R105 to R107) -/

/-- Dropping high bits leaves the value modulo a power of two, in the signed range. -/
theorem toInt_setWidth_low15 (off : BitVec 19) : (off.setWidth 15).toInt = off.toInt.bmod (2 ^ 15) := by
  rw [BitVec.toInt_setWidth, BitVec.toInt_eq_toNat_bmod, Int.bmod_bmod_of_dvd (by decide)]

/-- An offset of 19 bits is the sign extension of its low 15 exactly when it fits 15 signed bits. -/
theorem low15_admits_iff {cc : BitVec 4} {off : BitVec 19} :
    BcondOffset.low15.Admits cc off = true ↔ FitsSigned 15 off.toInt := by
  have hext : ((off.setWidth 15).signExtend 19).toInt = (off.setWidth 15).toInt :=
    BitVec.toInt_signExtend_of_le (by decide)
  rw [BcondOffset.Admits, beq_iff_eq, ← BitVec.toInt_inj, hext]
  constructor
  · intro h
    rw [h]
    exact fitsSigned_toInt _
  · rintro ⟨hlo, hhi⟩
    rw [toInt_setWidth_low15, Int.bmod_eq_of_le_mul_two]
    · omega
    · omega

/-- Under `Low15` a conditional branch takes the offsets of 15 signed bits (30_encoding R106). -/
theorem low15_range {c : Config} (h : c.bcond = .low15) (cc : BitVec 4) (v : Int) :
    FitsSigned 19 v ∧ c.bcond.Admits cc (BitVec.ofInt 19 v) = true ↔ FitsSigned 15 v := by
  rw [h, low15_admits_iff]
  constructor
  · rintro ⟨⟨hlo, hhi⟩, hlow⟩
    rwa [BitVec.toInt_ofInt_eq_self (by decide) hlo hhi] at hlow
  · rintro ⟨hlo, hhi⟩
    have hlo' : -2 ^ (19 - 1) ≤ v := by omega
    have hhi' : v < 2 ^ (19 - 1) := by omega
    rw [BitVec.toInt_ofInt_eq_self (by decide) hlo' hhi']
    exact ⟨⟨hlo', hhi'⟩, hlo, hhi⟩

/-- Settles O53, shape by shape. -/
theorem assemblerRanges : Obligations.AssemblerRanges := by
  intro st c v r1 r2
  refine ⟨assembleOperands_branch st c v _, assembleOperands_compareBranch st c r1 v _, fun hlow => ?_,
    assembleOperands_immediate st c r1 r2 v _, ?_, assembleOperands_shift st c r1 r2 v _⟩
  · rw [assembleOperands_condBranch]
    exact if_congr (low15_range hlow c.enc.ccLt v) rfl rfl
  · have hrange : FitsSigned 9 v ↔ -256 ≤ v ∧ v ≤ 255 := by omega
    rw [assembleOperands_memory]
    exact if_congr hrange rfl rfl

/-! ## Lines (30_encoding R100, R101, R108) -/

/-- A line holds no instruction exactly when nothing is left of it without its comment and outer white space. -/
theorem assembleInstr_eq_none {c : Config} {line : Text} :
    assembleInstr c line = .ok none ↔ trim (cutAsmComment line) = [] := by
  by_cases hempty : trim (cutAsmComment line) = []
  · simp [assembleInstr, hempty]
  · refine iff_of_false ?_ hempty
    cases htok : tokens (cutAsmComment line) with
    | nil => simp [assembleInstr, hempty, htok]
    | cons m ops =>
      rw [assembleInstr_of_tokens htok]
      cases assembleTokens c m ops <;> nofun

theorem assemble_eq_none {c : Config} {line : Text} :
    assemble c line = .ok none ↔ assembleInstr c line = .ok none := by
  unfold assemble
  split <;> simp_all

/-- Settles O54, by the line's tokens. -/
theorem assemblerLines : Obligations.AssemblerLines := by
  rintro c line _ rfl
  refine ⟨?_, fun hne htok => ?_, fun m ops htok hshape => ?_⟩
  · exact assemble_eq_none.trans assembleInstr_eq_none
  · simp [assemble, assembleInstr, hne, htok]
  · rw [assemble, assembleInstr_of_tokens htok, assembleTokens, hshape]
    rfl

/-! ## No refusal -/

theorem exec_ne_refused (i : Instr) (s : State) (r : Refusal) : exec i s ≠ .refused r := by
  cases i with
  | ldur rt rn off =>
    simp only [exec, execLdur]
    split <;> nofun
  | stur rt rn off =>
    simp only [exec, execStur]
    split <;> nofun
  | _ => nofun

/-- Settles O32: a step raises a fault or is an instruction's answer. -/
theorem noStepIsRefused : Obligations.NoStepIsRefused := by
  intro c s r
  unfold cycle
  split
  · nofun
  · split
    · nofun
    · exact exec_ne_refused _ s r

end Sys2Proof.Machine

/-! The fetch, the sentinels and the faults of a step (40_fetch_and_sentinels). -/

namespace Sys2Proof.Machine

/-! ## Faults -/

/-- A host's step that faults is a step that faults, and its state is the one before it (40_fetch R128). -/
theorem hostStep_eq_fault {c : Config} {s t : State} {f : Fault} :
    (.fault f, t) = hostStep c s ↔ cycle c s = .fault f ∧ t = s := by
  cases hcycle : cycle c s with
  | next u => simp [hostStep, hcycle]
  | fault g => simp [hostStep, hcycle, eq_comm]
  | refused r => simp [hostStep, hcycle]

/-- Settles O33: the state after a fault is the one before it, so the next step is the same step. -/
theorem faultsArePrecise : Obligations.FaultsArePrecise := by
  intro c s t f h
  obtain ⟨-, rfl⟩ := hostStep_eq_fault.mp h
  refine ⟨rfl, fun r u hagain => ?_⟩
  have hsame : (r, u) = (.fault f, t) := hagain.trans h.symm
  exact Prod.mk.inj hsame

/-! ## The sentinels -/

/-- `NOP_WORD` is tested for before every opcode (30_encoding R84), but after `HALT_WORD`. -/
theorem decodeWith_nopWord {c : Config} (h : c.enc.nopWord ≠ haltWord) : decodeWith c c.enc.nopWord = .ok .nop := by
  rw [decodeWith, if_neg h, if_pos rfl]

theorem exec_nop (s : State) : exec .nop s = .next (advanceTo s (s.pc + 4)) := rfl

/-- Settles O29: `HALT` is `setHalted` and `NOP` is `advanceTo`, and these change one field and two. -/
theorem sentinelsRun : Obligations.SentinelsRun := by
  refine ⟨rfl, rfl, fun c hne => ⟨decodeWith_eq_halt.mpr rfl, decodeWith_nopWord hne⟩, fun s => ⟨?_, ?_⟩⟩
  · exact ⟨setHalted s, exec_halt s, setHalted_status s, setHalted_pc s, readX_setHalted s,
      ⟨setHalted_z s, setHalted_n s⟩, setHalted_mem s⟩
  · exact ⟨advanceTo s (s.pc + 4), exec_nop s, readX_advanceTo s _, ⟨advanceTo_z s _, advanceTo_n s _⟩,
      advanceTo_mem s _, advanceTo_pc s _, advanceTo_status s _⟩

/-! ## The step -/

theorem fetch_of_accessible {s : State} (h : Accessible s.mem s.pc) : fetch s = .ok (s.mem.word (s.pc.toNat / 4)) :=
  fetch_eq_ok.mpr ⟨h, rfl⟩

/-- Settles O30: at an accessible `pc` the fetch succeeds, and the step is then its word's decoding, run or rejected. -/
theorem stepRunsTheDecodedInstruction : Obligations.StepRunsTheDecodedInstruction := by
  refine ⟨fun c s i hpc hdecode => ?_, fun c s r hpc hreject => ?_, fun s => rfl⟩
  · exact cycle_of_decode (fetch_of_accessible hpc) hdecode
  · exact cycle_of_reject (fetch_of_accessible hpc) hreject

end Sys2Proof.Machine

/-! The branches (41_branches): the default words of all but `RET`, where each leaves `pc`, and that nothing but `BL`'s
link register changes beside it. -/

namespace Sys2Proof

/-! ## Default words and the offset of a conditional branch -/

theorem toNat_compareBranch_word (op : BitVec 8) (off : BitVec 19) (rt : RegIdx) :
    (op ++ off ++ rt : Word32).toNat = op.toNat * 2 ^ 24 + off.toNat * 2 ^ 5 + rt.toNat := by
  rw [toNat_append_add, toNat_append_add]
  omega

theorem toNat_encodeBcond (e : Enc) (cc : BitVec 4) (off : BitVec 19) :
    (encodeBcond e cc off).toNat =
      e.opcBcond.toNat * 2 ^ 24 + cc.toNat * 2 ^ 20 + off.toNat % 2 ^ 15 * 2 ^ 5 + 0x1F := by
  rw [encodeBcond, toNat_append_add, toNat_append_add, toNat_append_add, BitVec.toNat_setWidth, BitVec.toNat_ofNat]
  omega

/-- The two readings of `BCOND_OFFSET`: the signed value of bits 19:5, or bits 23:5 themselves (30_encoding R86). -/
theorem bcondOffset_eq_of_reading {m : BcondOffset} {w : Word32} {off : BitVec 19}
    (h : m = .low15 ∧ off.toInt = (getField w 5 15).toInt ∨ m = .full19 ∧ off = getField w 5 19) :
    bcondOffset m w = off := by
  rcases h with ⟨rfl, hoff⟩ | ⟨rfl, hoff⟩
  · apply BitVec.eq_of_toInt_eq
    rw [bcondOffset, BitVec.toInt_signExtend_of_le (by decide), hoff]
  · exact hoff.symm

end Sys2Proof

namespace Sys2Proof.Machine

/-! ## The target, and going on at an address -/

/-- The target is four times the signed offset away, modulo `2^64` (41_branches R148). -/
theorem branchTarget_eq_add_ofInt {n : Nat} (s : State) (off : BitVec n) :
    branchTarget s off = s.pc + BitVec.ofInt 64 (4 * off.toInt) := by
  have hshift : sext off <<< 2 = BitVec.ofInt 64 (4 * off.toInt) := by
    rw [BitVec.shiftLeft_eq_mul_twoPow, BitVec.mul_comm, BitVec.ofInt_mul]
    rfl
  rw [branchTarget, hshift]

theorem advanceTo_frame (s : State) (p : Word) :
    (advanceTo s p).status = .running ∧ RegsKept s (advanceTo s p) ∧ FlagsKept s (advanceTo s p) ∧
      MemKept s (advanceTo s p) :=
  ⟨advanceTo_status s p, readX_advanceTo s p, ⟨advanceTo_z s p, advanceTo_n s p⟩, rfl, fun _ => rfl⟩

/-- A conditional branch completes, at its target or at the next instruction, and changes nothing else. -/
theorem branchIf_completes {n : Nat} (s : State) (cond : Bool) (off : BitVec n) :
    ∃ t, branchIf s cond off = .next t ∧
      t.pc = (if cond then s.pc + BitVec.ofInt 64 (4 * off.toInt) else s.pc + 4) ∧
      t.status = .running ∧ RegsKept s t ∧ FlagsKept s t ∧ MemKept s t :=
  ⟨_, rfl, by rw [advanceTo_pc, branchTarget_eq_add_ofInt, nextPc_eq], advanceTo_frame s _⟩

/-- A branch taken where a condition fails: `CBNZ`, `B.NE` and `B.GE`. -/
theorem branchIf_not_completes {n : Nat} (s : State) (cond : Bool) (off : BitVec n) :
    ∃ t, branchIf s (!cond) off = .next t ∧
      t.pc = (if cond then s.pc + 4 else s.pc + BitVec.ofInt 64 (4 * off.toInt)) ∧
      t.status = .running ∧ RegsKept s t ∧ FlagsKept s t ∧ MemKept s t := by
  obtain ⟨t, hnext, hpc, hframe⟩ := branchIf_completes s (!cond) off
  refine ⟨t, hnext, ?_, hframe⟩
  cases cond
  · exact hpc
  · exact hpc

/-! ## `B` and `BL` -/

/-- Settles O24: `B` moves `pc` alone, and `BL` writes its link register before it does. -/
theorem branchAndLink : Obligations.BranchAndLink := by
  refine ⟨fun off => ⟨toNat_append_add 5#6 off, toNat_append_add 37#6 off⟩,
    fun c w h => ⟨decodeWith_of_opcB h, decodeWith_of_opcBl h⟩, fun s off => ⟨?_, ?_⟩⟩
  · exact ⟨_, exec_b s off, branchTarget_eq_add_ofInt s off, advanceTo_frame s _⟩
  · refine ⟨_, exec_bl s off, branchTarget_eq_add_ofInt s off, ?_⟩
    obtain ⟨hstatus, -, hflags, hmem⟩ := advanceTo_frame (writeX s 30#5 (s.pc + 4)) (branchTarget s off)
    exact ⟨hstatus, readX_writeX_same s _ _, fun r hr => readX_writeX_other s _ hr, hflags, hmem⟩

/-- Settles O46: `RET X30` goes to what `BL` wrote there. -/
theorem callThenReturn : Obligations.CallThenReturn := by
  intro s t u off hbl hlink
  obtain rfl := continueAt_eq_next.mp hbl
  refine ⟨advanceTo u (readX u 30), rfl, ?_⟩
  rw [advanceTo_pc, hlink]
  exact readX_writeX_same s 30 (s.pc + 4)

/-! ## The conditional branches -/

/-- Settles O25: the condition is whether the register is zero, and no flag. -/
theorem compareAndBranch : Obligations.CompareAndBranch := by
  refine ⟨fun rt off => ⟨toNat_compareBranch_word 0xB4#8 off rt, toNat_compareBranch_word 0xB5#8 off rt⟩,
    fun c w h => ⟨decodeWith_of_opcCbz h, decodeWith_of_opcCbnz h⟩, fun s rt off => ⟨?_, ?_⟩⟩
  · obtain ⟨t, hnext, hpc, hframe⟩ := branchIf_completes s (readX s rt == 0) off
    exact ⟨t, hnext, fun hzero => hpc.trans (if_pos (beq_iff_eq.mpr hzero)),
      fun hne => hpc.trans (if_neg (mt beq_iff_eq.mp hne)), hframe⟩
  · obtain ⟨t, hnext, hpc, hframe⟩ := branchIf_not_completes s (readX s rt == 0) off
    exact ⟨t, hnext, fun hne => hpc.trans (if_neg (mt beq_iff_eq.mp hne)),
      fun hzero => hpc.trans (if_pos (beq_iff_eq.mpr hzero)), hframe⟩

/-- Settles O26: under either reading the offset is `bcondOffset`, and each condition is one flag or its negation. -/
theorem conditionalBranches : Obligations.ConditionalBranches := by
  refine ⟨fun off => ?_, fun c w off h hop hreading => ?_, fun s off => ?_⟩
  · have hword := fun cc => toNat_encodeBcond defaultEnc cc off
    exact ⟨hword 0x0, hword 0x1, hword 0xB, hword 0xA⟩
  · rw [← bcondOffset_eq_of_reading hreading]
    exact ⟨decodeWith_of_cond h (k := 0) hop rfl, decodeWith_of_cond h (k := 1) hop rfl,
      decodeWith_of_cond h (k := 2) hop rfl, decodeWith_of_cond h (k := 3) hop rfl⟩
  · exact ⟨branchIf_completes s s.z off, branchIf_not_completes s s.z off, branchIf_completes s s.n off,
      branchIf_not_completes s s.n off⟩

/-! ## `B.LT` and `B.GE` after `CMP` -/

/-- `CMP`'s Negative flag is the sign of the wrapped difference (10_state R32). -/
theorem compareN_eq_decide (a b : Word) : compareN a b = decide ((a - b).toInt < 0) :=
  BitVec.msb_eq_toInt

/-- The wrapped difference has the sign of the true one exactly when nothing was wrapped: a difference too large comes
out negative, one too small comes out nonnegative. -/
theorem toInt_sub_neg_iff_lt_iff_fitsSigned (a b : Word) :
    ((a - b).toInt < 0 ↔ a.toInt < b.toInt) ↔ FitsSigned 64 (a.toInt - b.toInt) := by
  have hwrap : (a - b).toInt = (a.toInt - b.toInt).bmod (2 ^ 64) := BitVec.toInt_sub
  rw [Int.bmod_def] at hwrap
  obtain ⟨halow, hahigh⟩ := fitsSigned_toInt a
  obtain ⟨hblow, hbhigh⟩ := fitsSigned_toInt b
  by_cases hlow : -2 ^ 63 ≤ a.toInt - b.toInt
  · by_cases hhigh : a.toInt - b.toInt < 2 ^ 63
    · have hsame : (a - b).toInt = a.toInt - b.toInt := by omega
      exact iff_of_true (by omega) ⟨hlow, hhigh⟩
    · have hneg : (a - b).toInt = a.toInt - b.toInt - 2 ^ 64 := by omega
      exact iff_of_false (by omega) fun hfit => hhigh hfit.2
  · have hpos : (a - b).toInt = a.toInt - b.toInt + 2 ^ 64 := by omega
    exact iff_of_false (by omega) fun hfit => hlow hfit.1

/-- Settles O45: `N` after `CMP` is the sign of the wrapped difference, which `B.LT` and `B.GE` read. -/
theorem lessThanAfterCompare : Obligations.LessThanAfterCompare := by
  intro s t rn rm off hcmp
  have hn : t.n = decide ((readX s rn - readX s rm).toInt < 0) := by
    obtain rfl := continueNext_eq_next.mp hcmp
    exact compareN_eq_decide _ _
  refine ⟨?_, ?_, ?_⟩
  · obtain ⟨u, hnext, hpc, -⟩ := branchIf_completes t t.n off
    exact ⟨u, hnext, by simpa [hn] using hpc⟩
  · obtain ⟨u, hnext, hpc, -⟩ := branchIf_not_completes t t.n off
    exact ⟨u, hnext, by simpa [hn] using hpc⟩
  · rw [hn, decide_eq_true_iff]
    exact toInt_sub_neg_iff_lt_iff_fitsSigned _ _

end Sys2Proof.Machine

/-! Immediate arithmetic (42_immediate): the default words, the sum and the difference with the unsigned immediate, and
what an instruction that writes one register and goes on leaves unchanged. -/

namespace Sys2Proof

theorem toNat_immediate_word (op : BitVec 10) (imm : BitVec 12) (rn rd : RegIdx) :
    (op ++ imm ++ rn ++ rd : Word32).toNat =
      op.toNat * 2 ^ 22 + imm.toNat * 2 ^ 10 + rn.toNat * 2 ^ 5 + rd.toNat := by
  rw [toNat_append_add, toNat_append_add, toNat_append_add]
  omega

theorem toNat_add_zext {n : Nat} (hn : n ≤ 64) (a : Word) (v : BitVec n) :
    (a + zext v).toNat = (a.toNat + v.toNat) % 2 ^ 64 := by
  rw [BitVec.toNat_add, BitVec.toNat_setWidth_of_le hn]

/-- A 64-bit difference as a number, with the borrow written first. -/
theorem toNat_word_sub (a b : Word) : (a - b).toNat = (a.toNat + 2 ^ 64 - b.toNat) % 2 ^ 64 := by
  have hb : b.toNat < 2 ^ 64 := b.isLt
  rw [BitVec.toNat_sub]
  congr 1
  omega

theorem toNat_sub_zext {n : Nat} (hn : n ≤ 64) (a : Word) (v : BitVec n) :
    (a - zext v).toNat = (a.toNat + 2 ^ 64 - v.toNat) % 2 ^ 64 := by
  rw [toNat_word_sub, BitVec.toNat_setWidth_of_le hn]

end Sys2Proof

namespace Sys2Proof.Machine

/-- An instruction that writes one register and goes on completes, with the value in that register and nothing else
changed but `pc` and `status`. -/
theorem writeAndContinue_completes (s : State) (rd : RegIdx) (v : Word) :
    ∃ t, writeAndContinue s rd v = .next t ∧ readX t rd = v ∧
      OtherRegsKept s t rd ∧ FlagsKept s t ∧ MemKept s t ∧ WentOn s t := by
  obtain ⟨hstatus, -, hflags, hmem⟩ := advanceTo_frame (writeX s rd v) (s.pc + 4)
  exact ⟨_, writeAndContinue_eq_next.mpr rfl, readX_writeX_same s rd v, fun r hr => readX_writeX_other s v hr,
    hflags, hmem, advanceTo_pc _ _, hstatus⟩

theorem exec_addi (s : State) (rd rn : RegIdx) (imm : BitVec 12) :
    exec (.addi rd rn imm) s = writeAndContinue s rd (readX s rn + zext imm) := rfl

theorem exec_subi (s : State) (rd rn : RegIdx) (imm : BitVec 12) :
    exec (.subi rd rn imm) s = writeAndContinue s rd (readX s rn - zext imm) := rfl

/-- Settles O17: each instruction writes one register and goes on, and the zero-extended immediate is its own value. -/
theorem immediateArithmetic : Obligations.ImmediateArithmetic := by
  refine ⟨fun rd rn imm => ⟨toNat_immediate_word 0x244#10 imm rn rd, toNat_immediate_word 0x344#10 imm rn rd⟩,
    fun c w h => ⟨decodeWith_of_opcAddi h, decodeWith_of_opcSubi h⟩, fun s rd rn imm => ⟨?_, ?_⟩⟩
  · obtain ⟨t, hnext, hvalue, hframe⟩ := writeAndContinue_completes s rd (readX s rn + zext imm)
    refine ⟨t, (exec_addi s rd rn imm).trans hnext, ?_, hframe⟩
    rw [hvalue, toNat_add_zext (by decide)]
  · obtain ⟨t, hnext, hvalue, hframe⟩ := writeAndContinue_completes s rd (readX s rn - zext imm)
    refine ⟨t, (exec_subi s rd rn imm).trans hnext, ?_, hframe⟩
    rw [hvalue, toNat_sub_zext (by decide)]

end Sys2Proof.Machine

/-! Loads and stores (43_load_store): the default words, the effective address, what `LDUR` and `STUR` do at an
accessible address, and the fault each gives at any other. -/

namespace Sys2Proof

theorem toNat_memory_word (op : BitVec 11) (off : BitVec 9) (rn rt : RegIdx) :
    (op ++ off ++ 0#2 ++ rn ++ rt : Word32).toNat =
      op.toNat * 2 ^ 21 + off.toNat * 2 ^ 12 + rn.toNat * 2 ^ 5 + rt.toNat := by
  rw [toNat_append_add, toNat_append_add, toNat_append_add, toNat_append_add, BitVec.toNat_ofNat]
  omega

end Sys2Proof

namespace Sys2Proof.Machine

/-! ## The address, its faults, and what each access changes -/

/-- The one addressing mode: base plus signed byte offset, modulo `2^64` (43_load_store R172). -/
theorem effectiveAddress_eq_add_ofInt (s : State) (rn : RegIdx) (off : BitVec 9) :
    effectiveAddress s rn off = readX s rn + BitVec.ofInt 64 off.toInt := rfl

/-- A load or a store at an address that is not accessible faults as the check does: alignment first, then bounds. -/
theorem exec_access_faults {i : Instr} (s : State) {rt rn : RegIdx} {off : BitVec 9}
    (hi : i = .ldur rt rn off ∨ i = .stur rt rn off) :
    ((effectiveAddress s rn off).toNat % 4 ≠ 0 →
      exec i s = .fault (.alignmentError (effectiveAddress s rn off))) ∧
    ((effectiveAddress s rn off).toNat % 4 = 0 → s.mem.capacity ≤ (effectiveAddress s rn off).toNat / 4 →
      exec i s = .fault (.outOfBounds (effectiveAddress s rn off))) := by
  refine ⟨fun hmis => ?_, fun haligned hout => ?_⟩
  · exact exec_eq_fault.mpr ⟨rt, rn, off, hi, check_eq_error.mpr (.inl ⟨hmis, rfl⟩)⟩
  · exact exec_eq_fault.mpr ⟨rt, rn, off, hi, check_eq_error.mpr (.inr ⟨haligned, hout, rfl⟩)⟩

/-- `LDUR` at an accessible address is a register write of the zero-extended word. -/
theorem exec_ldur_of_accessible {s : State} {rt rn : RegIdx} {off : BitVec 9}
    (h : Accessible s.mem (effectiveAddress s rn off)) :
    exec (.ldur rt rn off) s =
      writeAndContinue s rt (zext (s.mem.word ((effectiveAddress s rn off).toNat / 4))) :=
  exec_ldur_eq_next.mpr ⟨h, rfl⟩

/-- An instruction that replaces memory and goes on keeps the rest of the state but `pc` and `status`. -/
theorem advanceTo_setMem_frame (s : State) (m : Memory) :
    RegsKept s (advanceTo (setMem s m) (s.pc + 4)) ∧ FlagsKept s (advanceTo (setMem s m) (s.pc + 4)) ∧
      WentOn s (advanceTo (setMem s m) (s.pc + 4)) := by
  obtain ⟨hstatus, hregs, hflags, -⟩ := advanceTo_frame (setMem s m) (s.pc + 4)
  exact ⟨fun r => (hregs r).trans (readX_setMem s m r), hflags, advanceTo_pc _ _, hstatus⟩

/-! ## `LDUR` and `STUR` -/

/-- Settles O27: at an accessible address `LDUR` writes one register and goes on, and the zero-extended word is its own
value; at any other it faults as the check does. -/
theorem loadWordResult : Obligations.LoadWordResult := by
  refine ⟨fun rt rn off => toNat_memory_word 0x7C2#11 off rn rt, fun c w h => decodeWith_of_opcLdur h, ?_⟩
  rintro s rt rn off ea rfl
  refine ⟨effectiveAddress_eq_add_ofInt s rn off, fun hacc => ?_, exec_access_faults s (.inl rfl)⟩
  obtain ⟨t, hnext, hvalue, hframe⟩ :=
    writeAndContinue_completes s rt (zext (s.mem.word ((effectiveAddress s rn off).toNat / 4)))
  refine ⟨t, (exec_ldur_of_accessible hacc).trans hnext, ?_, hframe⟩
  rw [hvalue, BitVec.toNat_setWidth_of_le (by decide)]

/-- Settles O28: at an accessible address `STUR` is `setWord` of the low half of the register, whose frame is that of
one aligned word; at any other it faults as the check does. -/
theorem storeWordResult : Obligations.StoreWordResult := by
  refine ⟨fun rt rn off => toNat_memory_word 0x7C0#11 off rn rt, fun c w h => decodeWith_of_opcStur h, ?_⟩
  rintro s rt rn off ea hinv rfl
  have ⟨_, hcells, _⟩ := hinv
  refine ⟨effectiveAddress_eq_add_ofInt s rn off, fun hacc => ?_, exec_access_faults s (.inr rfl)⟩
  refine ⟨_, exec_stur_eq_next.mpr ⟨hacc, rfl⟩, ?_, ⟨setWord_capacity _ _ _, fun b hb => ?_⟩,
    advanceTo_setMem_frame s _⟩
  · rw [advanceTo_mem, setMem_mem, word_setWord hcells, if_pos rfl, lowWord, BitVec.toNat_setWidth]
  · obtain ⟨haligned, -⟩ := hacc
    exact readByte_setWord_outside hinv _ (by omega)

end Sys2Proof.Machine

/-! Register arithmetic (44_register): the default words of the register format, and the sum and the difference of two
registers. -/

namespace Sys2Proof

theorem toNat_register_word (op : BitVec 11) (rm : BitVec 5) (fn : BitVec 6) (rn rd : RegIdx) :
    (op ++ rm ++ fn ++ rn ++ rd : Word32).toNat =
      op.toNat * 2 ^ 21 + rm.toNat * 2 ^ 16 + fn.toNat * 2 ^ 10 + rn.toNat * 2 ^ 5 + rd.toNat := by
  rw [toNat_append_add, toNat_append_add, toNat_append_add, toNat_append_add]
  omega

end Sys2Proof

namespace Sys2Proof.Machine

theorem exec_add (s : State) (rd rn rm : RegIdx) :
    exec (.add rd rn rm) s = writeAndContinue s rd (readX s rn + readX s rm) := rfl

theorem exec_sub (s : State) (rd rn rm : RegIdx) :
    exec (.sub rd rn rm) s = writeAndContinue s rd (readX s rn - readX s rm) := rfl

/-- Settles O18: each instruction writes one register and goes on, and its word is of the register format with a zero
`shamt`, which the decoder does not read. -/
theorem registerArithmetic : Obligations.RegisterArithmetic := by
  refine ⟨fun rd rn rm => ⟨toNat_register_word 0x458#11 rm 0#6 rn rd, toNat_register_word 0x658#11 rm 0#6 rn rd⟩,
    fun c w h => ⟨decodeWith_of_opcAdd h, decodeWith_of_opcSub h⟩, fun s rd rn rm => ⟨?_, ?_⟩⟩
  · obtain ⟨t, hnext, hvalue, hframe⟩ := writeAndContinue_completes s rd (readX s rn + readX s rm)
    refine ⟨t, (exec_add s rd rn rm).trans hnext, ?_, hframe⟩
    rw [hvalue, BitVec.toNat_add]
  · obtain ⟨t, hnext, hvalue, hframe⟩ := writeAndContinue_completes s rd (readX s rn - readX s rm)
    refine ⟨t, (exec_sub s rd rn rm).trans hnext, ?_, hframe⟩
    rw [hvalue, toNat_word_sub]

end Sys2Proof.Machine

/-! The X-extended format (45_extended): the default words of its eight instructions, what each leaves in its register,
in the flags or in `pc`, and what it keeps. -/

namespace Sys2Proof

/-- A word of the X format under the default assignment. -/
theorem toNat_encodeX_default (rm : BitVec 5) (fn : BitVec 6) (rn rd : RegIdx) :
    (encodeX defaultEnc rm fn rn rd).toNat =
      0x8A000000 + fn.toNat * 2 ^ 10 + rm.toNat * 2 ^ 16 + rn.toNat * 2 ^ 5 + rd.toNat := by
  rw [encodeX, toNat_register_word, show defaultEnc.opcX.toNat * 2 ^ 21 = 0x8A000000 from rfl]
  omega

/-- The low half of a product is the same for signed operands: it is their product, up to a multiple of `2 ^ 64`. -/
theorem dvd_toInt_mul_sub_toInt_mul (a b : Word) : (2 ^ 64 : Int) ∣ a.toInt * b.toInt - (a * b).toInt := by
  rw [BitVec.toInt_mul, dvd_sub_comm]
  exact Int.dvd_bmod_sub_self

end Sys2Proof

namespace Sys2Proof.Machine

/-! ## Each instruction's answer -/

theorem exec_and (s : State) (rd rn rm : RegIdx) :
    exec (.and rd rn rm) s = writeAndContinue s rd (readX s rn &&& readX s rm) := rfl

theorem exec_orr (s : State) (rd rn rm : RegIdx) :
    exec (.orr rd rn rm) s = writeAndContinue s rd (readX s rn ||| readX s rm) := rfl

theorem exec_eor (s : State) (rd rn rm : RegIdx) :
    exec (.eor rd rn rm) s = writeAndContinue s rd (readX s rn ^^^ readX s rm) := rfl

theorem exec_mul (s : State) (rd rn rm : RegIdx) :
    exec (.mul rd rn rm) s = writeAndContinue s rd (readX s rn * readX s rm) := rfl

/-- A 5-bit amount is below 64, so taking it modulo 64 changes nothing. -/
theorem shiftAmount_eq_toNat (sh : BitVec 5) : shiftAmount sh = sh.toNat := by
  have hsmall : sh.toNat < 32 := sh.isLt
  rw [shiftAmount, BitVec.toNat_setWidth_of_le (by decide)]
  omega

theorem exec_lsl (s : State) (rd rn : RegIdx) (sh : BitVec 5) :
    exec (.lsl rd rn sh) s = writeAndContinue s rd (readX s rn <<< sh.toNat) := by
  rw [← shiftAmount_eq_toNat]
  rfl

theorem exec_lsr (s : State) (rd rn : RegIdx) (sh : BitVec 5) :
    exec (.lsr rd rn sh) s = writeAndContinue s rd (readX s rn >>> sh.toNat) := by
  rw [← shiftAmount_eq_toNat]
  rfl

theorem exec_cmp (s : State) (rn rm : RegIdx) :
    exec (.cmp rn rm) s = .next (advanceTo (setFlags s (readX s rn) (readX s rm)) (s.pc + 4)) := rfl

theorem exec_ret (s : State) (rn : RegIdx) : exec (.ret rn) s = .next (advanceTo s (readX s rn)) := rfl

/-! ## The flags of `CMP` -/

theorem compareZ_eq_true_iff (a b : Word) : compareZ a b = true ↔ a = b := by
  rw [compareZ, beq_iff_eq]
  exact sub_eq_zero

theorem compareN_eq_true_iff (a b : Word) :
    compareN a b = true ↔ 2 ^ 63 ≤ (a.toNat + 2 ^ 64 - b.toNat) % 2 ^ 64 := by
  rw [compareN, BitVec.msb_eq_decide, decide_eq_true_iff, toNat_word_sub]

/-! ## The instructions -/

/-- An instruction that writes one register with a word made bit by bit of two others completes with those bits, and
changes nothing else but `pc` and `status`. -/
theorem exec_completes_of_bitwise {i : Instr} {s : State} {rd rn rm : RegIdx} {v : Word} (f : Bool → Bool → Bool)
    (hexec : exec i s = writeAndContinue s rd v)
    (hbits : ∀ k, v.getLsbD k = f ((readX s rn).getLsbD k) ((readX s rm).getLsbD k)) :
    ∃ t, exec i s = .next t ∧
      (∀ k, (readX t rd).getLsbD k = f ((readX s rn).getLsbD k) ((readX s rm).getLsbD k)) ∧
      OtherRegsKept s t rd ∧ FlagsKept s t ∧ MemKept s t ∧ WentOn s t := by
  obtain ⟨t, hnext, hvalue, hframe⟩ := writeAndContinue_completes s rd v
  exact ⟨t, hexec.trans hnext, fun k => by rw [hvalue, hbits], hframe⟩

/-- Settles O19: each instruction writes one register and goes on, and the operation on words is the one on bits. -/
theorem bitwiseLogic : Obligations.BitwiseLogic := by
  refine ⟨fun rd rn rm => ?_, fun c w h hop => ?_, fun s rd rn rm => ⟨?_, ?_, ?_⟩⟩
  · have hword := fun fn => toNat_encodeX_default rm fn rn rd
    exact ⟨hword 0x00, hword 0x01, hword 0x02⟩
  · exact ⟨decodeWith_of_funct h (k := 0) hop rfl, decodeWith_of_funct h (k := 1) hop rfl,
      decodeWith_of_funct h (k := 2) hop rfl⟩
  · exact exec_completes_of_bitwise and (exec_and s rd rn rm) fun _ => BitVec.getLsbD_and
  · exact exec_completes_of_bitwise or (exec_orr s rd rn rm) fun _ => BitVec.getLsbD_or
  · exact exec_completes_of_bitwise xor (exec_eor s rd rn rm) fun _ => BitVec.getLsbD_xor

/-- Settles O20: the register holds the product of 64-bit words, which either reading of the operands gives. -/
theorem multiplyLow : Obligations.MultiplyLow := by
  refine ⟨fun rd rn rm => toNat_encodeX_default rm 0x03 rn rd,
    fun c w h hop hfn => decodeWith_of_funct h (k := 3) hop rfl hfn, fun s rd rn rm => ?_⟩
  obtain ⟨t, hnext, hvalue, hframe⟩ := writeAndContinue_completes s rd (readX s rn * readX s rm)
  refine ⟨t, (exec_mul s rd rn rm).trans hnext, ?_, ?_, hframe⟩
  · rw [hvalue, BitVec.toNat_mul]
  · rw [hvalue]
    exact dvd_toInt_mul_sub_toInt_mul _ _

/-- Settles O21: the amount is the 5-bit field itself, and a shift is a product or a quotient by a power of two. -/
theorem immediateShifts : Obligations.ImmediateShifts := by
  refine ⟨fun rd rn sh => ⟨toNat_encodeX_default sh 0x04 rn rd, toNat_encodeX_default sh 0x05 rn rd⟩,
    fun c w h hop => ⟨decodeWith_of_funct h (k := 4) hop rfl, decodeWith_of_funct h (k := 5) hop rfl⟩,
    fun s rd rn sh => ⟨?_, ?_⟩⟩
  · obtain ⟨t, hnext, hvalue, hframe⟩ := writeAndContinue_completes s rd (readX s rn <<< sh.toNat)
    refine ⟨t, (exec_lsl s rd rn sh).trans hnext, ?_, hframe⟩
    rw [hvalue, BitVec.toNat_shiftLeft, Nat.shiftLeft_eq]
  · obtain ⟨t, hnext, hvalue, hframe⟩ := writeAndContinue_completes s rd (readX s rn >>> sh.toNat)
    refine ⟨t, (exec_lsr s rd rn sh).trans hnext, ?_, hframe⟩
    rw [hvalue, BitVec.toNat_ushiftRight, Nat.shiftRight_eq_div_pow]

/-- Settles O22: `setFlags` of the two registers, then on to the next instruction; the decoder does not read `Rd`. -/
theorem compareSetsBothFlags : Obligations.CompareSetsBothFlags := by
  refine ⟨fun rn rm => toNat_encodeX_default rm 0x06 rn 31,
    fun c w h hop hfn => decodeWith_of_funct h (k := 6) hop rfl hfn, fun s rn rm => ?_⟩
  obtain ⟨hstatus, hregs, -, hmem⟩ := advanceTo_frame (setFlags s (readX s rn) (readX s rm)) (s.pc + 4)
  exact ⟨_, exec_cmp s rn rm, compareZ_eq_true_iff _ _, compareN_eq_true_iff _ _,
    fun r => (hregs r).trans (readX_setFlags s _ _ r), hmem, advanceTo_pc _ _, hstatus⟩

/-- Settles O23: `RET` is `advanceTo` the register's value; the decoder reads neither `Rm` nor `Rd`. -/
theorem returnJumpsToRegister : Obligations.ReturnJumpsToRegister := by
  refine ⟨fun rn => toNat_encodeX_default 0 0x07 rn 0,
    fun c w h hop hfn => decodeWith_of_funct h (k := 7) hop rfl hfn, fun s rn => ?_⟩
  exact ⟨_, exec_ret s rn, advanceTo_pc _ _, advanceTo_frame s _⟩

end Sys2Proof.Machine

/-! The faults of a step and the host's interface (60_exceptions): when a step faults, what the host's register, `pc` and
flag accesses do, and how a run ends. -/

namespace Sys2Proof.Machine

/-! ## When a step faults -/

theorem fetch_eq_error {s : State} {f : Fault} : fetch s = .error f ↔ check s.mem s.pc = .error f :=
  memRead_eq_error

/-- All that a step can fault with: the fetch's fault, the illegal word, or the decoded instruction's fault. -/
theorem cycle_eq_fault {c : Config} {s : State} {f : Fault} :
    cycle c s = .fault f ↔ fetch s = .error f ∨ ∃ w, fetch s = .ok w ∧
      (((∃ r, decodeWith c w = .error r) ∧ f = .illegalInstruction w) ∨
       (∃ i, decodeWith c w = .ok i ∧ exec i s = .fault f)) := by
  cases hfetch : fetch s with
  | error g => simp [cycle, hfetch, raise]
  | ok w =>
    cases hdecode : decodeWith c w with
    | error r => simp [cycle_of_reject hfetch hdecode, hdecode, eq_comm]
    | ok i => simp [cycle_of_decode hfetch hdecode, hdecode]

/-- A decoded instruction faults when it is a load or a store whose effective address fails the check. -/
theorem decoded_exec_faults_iff {d : Except Reject Instr} {s : State} {f : Fault} :
    (∃ i, d = .ok i ∧ exec i s = .fault f) ↔
      ∃ rt rn off, (d = .ok (.ldur rt rn off) ∨ d = .ok (.stur rt rn off)) ∧
        check s.mem (effectiveAddress s rn off) = .error f := by
  constructor
  · rintro ⟨i, rfl, hfault⟩
    simpa using exec_eq_fault.mp hfault
  · rintro ⟨rt, rn, off, rfl | rfl, hcheck⟩
    · exact ⟨_, rfl, exec_eq_fault.mpr ⟨rt, rn, off, .inl rfl, hcheck⟩⟩
    · exact ⟨_, rfl, exec_eq_fault.mpr ⟨rt, rn, off, .inr rfl, hcheck⟩⟩

/-- Settles O31: the order of the rule is the order of `cycle`, and the fetch and an access fault as the check does. -/
theorem stepFaultsExactlyWhen : Obligations.StepFaultsExactlyWhen := by
  intro c s f
  rw [cycle_eq_fault, fetch_eq_error, check_eq_error, or_assoc]
  simp only [decoded_exec_faults_iff, fetch_eq_ok, check_eq_error, exists_and_left, exists_eq_left, and_assoc]

/-! ## The host's register, `pc` and flag accesses -/

theorem hostIndex_toNat (i : RegIdx) : hostIndex i.toNat = .ok i := by
  have hlt := i.isLt
  rw [hostIndex, if_pos (by omega), ofInt_toNat]

theorem hostIndex_of_outside {i : Int} (h : i < 0 ∨ 31 < i) : hostIndex i = .error (.registerIndexError i) := by
  rw [hostIndex, if_neg (by omega)]

/-- Settles O3, by the two answers of `hostIndex`; `pc` and the flags are read and written directly. -/
theorem hostCpuAccess : Obligations.HostCpuAccess := by
  intro c s t r
  refine ⟨fun i => ?_, fun i v => ?_, fun i v hi => ⟨?_, ?_⟩, Prod.mk_inj, fun v h => ?_, Prod.mk_inj⟩
  · simp [hostMay, hostGetX, hostIndex_toNat]
  · simp [hostMay, hostSetX, hostIndex_toNat]
  · simp [hostMay, hostGetX, hostIndex_of_outside hi]
  · simp [hostMay, hostSetX, hostIndex_of_outside hi]
  · obtain ⟨rfl, rfl⟩ := Prod.mk_inj.mp h
    exact ⟨rfl, rfl, fun _ => rfl, ⟨rfl, rfl⟩, rfl, rfl⟩

/-! ## A step at `HALT` -/

theorem cycle_of_fetch_haltWord {c : Config} {s : State} (h : fetch s = .ok haltWord) :
    cycle c s = .next (setHalted s) :=
  cycle_of_decode h (decodeWith_eq_halt.mpr rfl)

/-- Halting leaves the fetch as it was and repeats without effect, so a halted state is its own next one
(70_reset R262). -/
theorem cycle_setHalted {c : Config} {s : State} (h : fetch s = .ok haltWord) :
    cycle c (setHalted s) = .next (setHalted s) :=
  cycle_of_fetch_haltWord (s := setHalted s) h

/-- Only a step that fetched `HALT` answers a Halted state (10_state R33). -/
theorem fetch_of_cycle_halted {c : Config} {s t : State} (h : cycle c s = .next t) (ht : t.status = .halted) :
    fetch s = .ok haltWord := by
  obtain ⟨w, i, hfetch, hdecode, hexec⟩ := cycle_eq_next.mp h
  have hi : i = .halt := by
    by_contra hne
    simp [exec_next_status hexec, hne] at ht
  subst hi
  rw [hfetch, decodeWith_eq_halt.mp hdecode]

/-! ## The run loop -/

section
variable {c : Config} {s t : State}

theorem runLoop_of_fault {f : Fault} (h : cycle c s = .fault f) (cap : Nat) :
    runLoop c (cap + 1) s = ⟨.faulted f, s, 1⟩ := by
  simp [runLoop, h]

theorem runLoop_of_halted (h : cycle c s = .next t) (ht : t.status = .halted) (cap : Nat) :
    runLoop c (cap + 1) s = ⟨.halted, t, 1⟩ := by
  simp [runLoop, h, ht]

theorem runLoop_of_running (h : cycle c s = .next t) (ht : t.status = .running) (cap : Nat) :
    runLoop c (cap + 1) s = (runLoop c cap t).countStep := by
  simp [runLoop, h, ht]

end

/-- The three ways a run from `s` can end within `cap` steps (70_reset R261), each by the Running steps before the end
and the step that ended it. -/
inductive RunEnds (c : Config) (cap : Nat) (s : State) : RunResult → Prop where
  | halted {k : Nat} {u : State} : k < cap → RunsFor c k s u → fetch u = .ok haltWord →
      RunEnds c cap s ⟨.halted, setHalted u, k + 1⟩
  | faulted {k : Nat} {u : State} {f : Fault} : k < cap → RunsFor c k s u → cycle c u = .fault f →
      RunEnds c cap s ⟨.faulted f, u, k + 1⟩
  | capReached {u : State} : RunsFor c cap s u → RunEnds c cap s ⟨.capReached, u, cap⟩

/-- A Running step before a run is one more step counted, and ends it the same way. -/
theorem RunEnds.countStep {c : Config} {cap : Nat} {s t : State} {v : RunResult} (hc : cycle c s = .next t)
    (hr : t.status = .running) (h : RunEnds c cap t v) : RunEnds c (cap + 1) s v.countStep := by
  cases h with
  | halted hk hrun hfetch => exact .halted (Nat.succ_lt_succ hk) (.step hc hr hrun) hfetch
  | faulted hk hrun hfault => exact .faulted (Nat.succ_lt_succ hk) (.step hc hr hrun) hfault
  | capReached hrun => exact .capReached (.step hc hr hrun)

theorem runEnds_runLoop (c : Config) (cap : Nat) (s : State) : RunEnds c cap s (runLoop c cap s) := by
  induction cap generalizing s with
  | zero => exact .capReached (.here s)
  | succ cap ih =>
    cases hcycle : cycle c s with
    | fault f =>
      rw [runLoop_of_fault hcycle]
      exact .faulted cap.succ_pos (.here s) hcycle
    | refused r => exact absurd hcycle (noStepIsRefused c s r)
    | next t =>
      cases ht : t.status with
      | running =>
        rw [runLoop_of_running hcycle ht]
        exact (ih t).countStep hcycle ht
      | halted =>
        have hfetch := fetch_of_cycle_halted hcycle ht
        obtain rfl : setHalted s = t := by simpa [cycle_of_fetch_haltWord hfetch] using hcycle
        rw [runLoop_of_halted hcycle ht]
        exact .halted cap.succ_pos (.here s) hfetch

/-- Settles O50, way of ending by way of ending. -/
theorem runLoopVerdicts : Obligations.RunLoopVerdicts := by
  refine ⟨fun c cap s v hv => ?_, fun c s t r => Prod.mk_inj⟩
  have hends : RunEnds c cap s v := hv ▸ runEnds_runLoop c cap s
  clear hv
  cases hends with
  | @halted k u hk hrun hfetch =>
    refine ⟨hk, fun _ => ?_, nofun, nofun, nofun⟩
    exact ⟨k, u, rfl, hrun, hfetch, cycle_of_fetch_haltWord hfetch, rfl, cycle_setHalted hfetch⟩
  | @faulted k u f hk hrun hfault =>
    refine ⟨hk, nofun, fun g hg => ?_, nofun, nofun⟩
    obtain rfl : f = g := Verdict.faulted.inj hg
    exact ⟨k, rfl, hrun, hfault⟩
  | capReached hrun => exact ⟨le_rfl, nofun, nofun, fun _ => ⟨rfl, hrun⟩, nofun⟩

end Sys2Proof.Machine

/-! `HALT` again (70_reset R262), memory cleared and the CPU reset (R251), and the sample words of 95_test_vectors. -/

namespace Sys2Proof.Machine

/-! ## A halted machine -/

/-- Settles O36: the step answers `setHalted s`, which changes the status alone and is its own next state. -/
theorem haltRepeats : Obligations.HaltRepeats := by
  intro c s t hfetch hcycle
  obtain rfl : setHalted s = t := by simpa [cycle_of_fetch_haltWord hfetch] using hcycle
  exact ⟨setHalted_pc s, setHalted_status s, readX_setHalted s, ⟨setHalted_z s, setHalted_n s⟩, setHalted_mem s,
    cycle_setHalted hfetch⟩

/-! ## Memory cleared, and the CPU reset -/

theorem hostMay_clear {c : Config} {s t : State} {r : HostReply} :
    hostMay c .clear s r t ↔ r = .done ∧ t = clearMemory s :=
  Prod.mk_inj

theorem loadImage_nil (capacity : Nat) : loadImage capacity [] = .ok (Memory.zeroed capacity) := by
  simp [loadImage, fillWords]

/-- Loading an empty image only clears memory (20_memory R60). -/
theorem hostMay_loadProgram_nil {c : Config} {s t : State} {r : HostReply} :
    hostMay c (.loadProgram []) s r t ↔ hostMay c .clear s r t :=
  (hostMay_loadProgram_of_ok (loadImage_nil s.mem.capacity)).trans hostMay_clear.symm

theorem hostMay_clear_spec {c : Config} {s t : State} {r : HostReply} (h : hostMay c .clear s r t) :
    r = .done ∧ CpuKept s t ∧ t.mem.capacity = s.mem.capacity ∧ ∀ i, t.mem.word i = 0 := by
  obtain ⟨rfl, rfl⟩ := hostMay_clear.mp h
  exact ⟨rfl, cpuKept_setMem s _, zeroed_capacity _, zeroed_word _⟩

theorem hostMay_reset {c : Config} {s t : State} {r : HostReply} :
    hostMay c .reset s r t ↔ r = .done ∧ t = cpuReset s :=
  Prod.mk_inj

theorem cpuReset_mem (s : State) : (cpuReset s).mem = s.mem := rfl

/-- Settles O2: a created memory is a zeroed one, clearing replaces memory by a zeroed one of its capacity, loading an
empty image is a clear, and a reset does not touch memory. -/
theorem clearAndResetAreIndependent : Obligations.ClearAndResetAreIndependent := by
  refine ⟨fun c => zeroed_word c.memWords, fun c s t r => hostMay_clear_spec,
    fun c s t r h => hostMay_clear_spec (hostMay_loadProgram_nil.mp h), fun c s t r h => ?_⟩
  obtain ⟨rfl, rfl⟩ := hostMay_reset.mp h
  exact ⟨rfl, rfl, cpuReset_mem s⟩

/-! ## Sample words -/

/-- Settles O10: fifteen closed facts, each decoded by evaluation. -/
theorem sampleWordsDecode : Obligations.SampleWordsDecode := by
  unfold Obligations.SampleWordsDecode
  decide

end Sys2Proof.Machine
